-- ==== Sys2Proof/Word.lean ====
section
/-! DEFINITION. The word types of the block's three spaces (10_state.md R33, 20_memory.md R45). -/

namespace Sys2Proof

/-- A configuration register, a rate, or a 32-bit datapath register (R7: `RATE_WIDTH`). -/
abbrev Word := BitVec 32

/-- A command word on the symbol port (R7: `CMD_WIDTH`; R52: bit 2 blank flag, bits 1 to 0 symbol). -/
abbrev Cmd := BitVec 3

/-- One output sample, two's complement (R7: `SAMPLE_WIDTH`; R37: `pcm_data`). -/
abbrev Sample := BitVec 16

end Sys2Proof
end

