-- ==== Sys2Proof/Syntax.lean ====
section
/-! DEFINITION. The instructions: one constructor per row of spec/opcode_table.json (30_encoding.md R54, R55), and
the words that carry them on the two ports (R52). -/

namespace Sys2Proof

/-- A host operation as the configuration port carries it in one step (20_memory.md R37): `cfg_we`, `cfg_addr`,
`cfg_wdata`. It is enabled by `cfg_en`, which the model shows by the operation being there. -/
structure HostOp where
  we : Bool
  addr : BitVec 3
  wdata : Word
  deriving DecidableEq, Repr

/-- A word together with the port it arrives on. R52: "A decoder tells the format by the port a word arrives on". -/
inductive PortWord where
  /-- Format S, on the symbol port. -/
  | sym (w : Cmd)
  /-- Format H, on the configuration port. -/
  | host (op : HostOp)
  deriving DecidableEq, Repr

/-- The instructions of the block. Every operand that the port carries is kept, so that a decoded word loses no bit;
what an operation does not use, its meaning does not read (log entry 15). -/
inductive Instr where
  /-- Symbol 0, offset 0 degrees (R91). -/
  | sym0
  /-- Symbol 1, offset 90 degrees (R92). -/
  | sym1
  /-- Symbol 2, offset 180 degrees (R93). -/
  | sym2
  /-- Symbol 3, offset 270 degrees (R94). -/
  | sym3
  /-- Silence (R95). `low` are bits 1 to 0, ignored but for their place in `CUR` (R90). -/
  | blank (low : BitVec 2)
  /-- Read register `reg` (R60). `data` is the unused write data on the port. -/
  | rd (reg : BitVec 3) (data : Word)
  /-- Write `SAMPLE_RATE` (R61). -/
  | wrSampleRate (v : Word)
  /-- Write `SYMBOL_RATE` (R62). -/
  | wrSymbolRate (v : Word)
  /-- Soft reset (R65); `v` is the `CTRL` write data. -/
  | srst (v : Word)
  /-- Stop the run (R64). -/
  | stop (v : Word)
  /-- Check the configuration and start a run (R63). -/
  | start (v : Word)
  /-- `CTRL` write with bits 2 to 0 clear (R66). -/
  | ctrlNop (v : Word)
  /-- Write to read-only `STATUS` (R67). -/
  | wrRoStatus (v : Word)
  /-- Write to read-only `SPS` (R67). -/
  | wrRoSps (v : Word)
  /-- Write to read-only `CAUSE` (R67). -/
  | wrRoCause (v : Word)
  /-- Write to reserved register 6 or 7 (R68). -/
  | wrRsvd (reg : BitVec 3) (v : Word)
  deriving DecidableEq, Repr

/-- The mnemonic of the instruction's row in spec/opcode_table.json. -/
def Instr.mnemonic : Instr → String
  | .sym0 => "SYM0"
  | .sym1 => "SYM1"
  | .sym2 => "SYM2"
  | .sym3 => "SYM3"
  | .blank _ => "BLANK"
  | .rd _ _ => "RD"
  | .wrSampleRate _ => "WR_SAMPLE_RATE"
  | .wrSymbolRate _ => "WR_SYMBOL_RATE"
  | .srst _ => "SRST"
  | .stop _ => "STOP"
  | .start _ => "START"
  | .ctrlNop _ => "CTRL_NOP"
  | .wrRoStatus _ => "WR_RO"
  | .wrRoSps _ => "WR_RO"
  | .wrRoCause _ => "WR_RO"
  | .wrRsvd _ _ => "WR_RSVD"

end Sys2Proof
end

