-- ==== Sys2Proof/WellFormed.lean ====
section
/-! DEFINITION. Which instructions stand for a word of the ports: an operand that also carries selector bits must carry
its own row's (30_encoding.md R55). -/

namespace Sys2Proof

/-- The bits of R55's patterns that lie inside an operand: `D` of a `CTRL` write, and the index 6 or 7 of a write to
a reserved register. Every other operand is free. -/
def Instr.wellFormed : Instr → Bool
  | .srst v => v.getLsbD 2
  | .stop v => !v.getLsbD 2 && v.getLsbD 1
  | .start v => !v.getLsbD 2 && !v.getLsbD 1 && v.getLsbD 0
  | .ctrlNop v => !v.getLsbD 2 && !v.getLsbD 1 && !v.getLsbD 0
  | .wrRsvd reg _ => reg.getLsbD 2 && reg.getLsbD 1
  | .sym0 => true
  | .sym1 => true
  | .sym2 => true
  | .sym3 => true
  | .blank _ => true
  | .rd _ _ => true
  | .wrSampleRate _ => true
  | .wrSymbolRate _ => true
  | .wrRoStatus _ => true
  | .wrRoSps _ => true
  | .wrRoCause _ => true

/-- The instruction stands for a word of a port. -/
abbrev Instr.WellFormed (i : Instr) : Prop := i.wellFormed = true

end Sys2Proof
end

