-- ==== Sys2Proof/Decode.lean ====
section
/-! DEFINITION. Decoding and encoding of the two formats (30_encoding.md R52 to R56), and the opcode table as rows of
match and mask. Decoding is total: R56, "No encoding is illegal and none traps". -/

namespace Sys2Proof

/-- Format S (R54): bit 2 is the blank flag, bits 1 to 0 the symbol value. -/
def decodeSymbol (w : Cmd) : Instr :=
  if w.getLsbD 2 then .blank (w.extractLsb' 0 2)
  else match w.getLsbD 1, w.getLsbD 0 with
    | false, false => .sym0
    | false, true => .sym1
    | true, false => .sym2
    | true, true => .sym3

/-- A write to `CTRL` (R55, rows `1 010 ...`): priority `SRST`, `STOP`, `START` (R28). -/
def decodeCtrl (v : Word) : Instr :=
  if v.getLsbD 2 then .srst v
  else if v.getLsbD 1 then .stop v
  else if v.getLsbD 0 then .start v
  else .ctrlNop v

/-- Format H (R55): `W` selects read or write, `A` the register. -/
def decodeHost (op : HostOp) : Instr :=
  if op.we then
    match op.addr.toNat with
    | 0 => .wrSampleRate op.wdata
    | 1 => .wrSymbolRate op.wdata
    | 2 => decodeCtrl op.wdata
    | 3 => .wrRoStatus op.wdata
    | 4 => .wrRoSps op.wdata
    | 5 => .wrRoCause op.wdata
    | _ => .wrRsvd op.addr op.wdata      -- 6 and 7, pattern `1 11x xxx`
  else .rd op.addr op.wdata

/-- The decoder of the block: the port decides the format (R52). -/
def decode : PortWord → Instr
  | .sym w => decodeSymbol w
  | .host op => decodeHost op

/-- A host write of `v` to register `reg` (R57: `WR reg, value`). -/
def hostWrite (reg : BitVec 3) (v : Word) : HostOp := { we := true, addr := reg, wdata := v }

/-- A host read of register `reg` (R57: `RD reg`); the unused write data is `data`. -/
def hostRead (reg : BitVec 3) (data : Word) : HostOp := { we := false, addr := reg, wdata := data }

/-- The word of an instruction, from the tables of R54 and R55. -/
def encode : Instr → PortWord
  | .sym0 => .sym 0b000#3
  | .sym1 => .sym 0b001#3
  | .sym2 => .sym 0b010#3
  | .sym3 => .sym 0b011#3
  | .blank low => .sym (1#1 ++ low)
  | .rd reg data => .host (hostRead reg data)
  | .wrSampleRate v => .host (hostWrite 0#3 v)
  | .wrSymbolRate v => .host (hostWrite 1#3 v)
  | .srst v => .host (hostWrite 2#3 v)
  | .stop v => .host (hostWrite 2#3 v)
  | .start v => .host (hostWrite 2#3 v)
  | .ctrlNop v => .host (hostWrite 2#3 v)
  | .wrRoStatus v => .host (hostWrite 3#3 v)
  | .wrRoSps v => .host (hostWrite 4#3 v)
  | .wrRoCause v => .host (hostWrite 5#3 v)
  | .wrRsvd reg v => .host (hostWrite reg v)

/-- The selector of a host operation, `(cfg_we, cfg_addr[2:0], cfg_wdata[2:0])` (R52). -/
def HostOp.selector (op : HostOp) : BitVec 7 :=
  BitVec.ofBool op.we ++ op.addr ++ op.wdata.extractLsb' 0 3

/-! ### The opcode table as data -/

/-- The two formats of R52. -/
inductive Format where
  | S
  | H
  deriving DecidableEq, Repr

/-- One row of spec/opcode_table.json: the bits under `mask` must read `pattern`. -/
structure OpcodeRow where
  mnemonic : String
  format : Format
  pattern : Nat
  mask : Nat
  deriving DecidableEq, Repr

/-- The sixteen rows of spec/opcode_table.json, in its order. -/
def opcodeTable : List OpcodeRow :=
  [ { mnemonic := "SYM0", format := .S, pattern := 0x0, mask := 0x7 },
    { mnemonic := "SYM1", format := .S, pattern := 0x1, mask := 0x7 },
    { mnemonic := "SYM2", format := .S, pattern := 0x2, mask := 0x7 },
    { mnemonic := "SYM3", format := .S, pattern := 0x3, mask := 0x7 },
    { mnemonic := "BLANK", format := .S, pattern := 0x4, mask := 0x4 },
    { mnemonic := "RD", format := .H, pattern := 0x00, mask := 0x40 },
    { mnemonic := "WR_SAMPLE_RATE", format := .H, pattern := 0x40, mask := 0x78 },
    { mnemonic := "WR_SYMBOL_RATE", format := .H, pattern := 0x48, mask := 0x78 },
    { mnemonic := "SRST", format := .H, pattern := 0x54, mask := 0x7C },
    { mnemonic := "STOP", format := .H, pattern := 0x52, mask := 0x7E },
    { mnemonic := "START", format := .H, pattern := 0x51, mask := 0x7F },
    { mnemonic := "CTRL_NOP", format := .H, pattern := 0x50, mask := 0x7F },
    { mnemonic := "WR_RO", format := .H, pattern := 0x58, mask := 0x78 },
    { mnemonic := "WR_RO", format := .H, pattern := 0x60, mask := 0x78 },
    { mnemonic := "WR_RO", format := .H, pattern := 0x68, mask := 0x78 },
    { mnemonic := "WR_RSVD", format := .H, pattern := 0x70, mask := 0x70 } ]

/-- The format of a port word. -/
def PortWord.format : PortWord → Format
  | .sym _ => .S
  | .host _ => .H

/-- The bits of a port word that the opcode table numbers. -/
def PortWord.tableBits : PortWord → Nat
  | .sym w => w.toNat
  | .host op => op.selector.toNat

/-- The mnemonics of the rows that a format and a word of that format match. -/
def matchingRows (f : Format) (bits : Nat) : List String :=
  (opcodeTable.filter (fun r => r.format == f && bits &&& r.mask == r.pattern)).map (·.mnemonic)

/-! ### The host's way in -/

/-- The port word of an opcode-table row's bits. The table gives a row of format S three bits and a row of format H
seven; `nbits` 1 to 3 means format S and 4 to 7 format H. Rounded to one byte the two look alike, and the port, which
would tell them apart, is not in the number: then 0 to 7 are command words and 8 to 127 host selectors, so that `RD` of
register 0 (selectors 0 to 7) cannot be written this way (DESIGN CHOICE, safe, log entry 4). The write data above the
selector's three bits is zero. -/
def portWordOfTable (nbits w : Nat) : Option PortWord :=
  if nbits ≤ 3 ∨ (7 < nbits ∧ w < 8) then
    if w < 8 then some (.sym (BitVec.ofNat 3 w)) else none
  else if w < 128 then
    some (.host { we := w.testBit 6, addr := BitVec.ofNat 3 (w / 8), wdata := BitVec.ofNat 32 (w % 8) })
  else none

/-- The instruction the decoder reads from the bits of an opcode-table row. -/
def decodeTableWord (nbits w : Nat) : Option Instr :=
  (portWordOfTable nbits w).map decode

end Sys2Proof
end

