-- ==== Sys2Proof/Config.lean ====
section
/-! DEFINITION. The build parameters of 00_scope.md R7: what is fixed for the machine and never changed by a step (R14). -/

namespace Sys2Proof

/-- The two datapath parameters of R7. A definition that depends on them takes a `Config`; the machine's
step uses `Config.hardware`. -/
structure Config where
  /-- `CARRIER_MULT`, written `M`: carrier cycles per symbol. -/
  carrierMult : Nat
  /-- `AMPLITUDE`, written `A`: peak sample magnitude. -/
  amplitude : Nat
  deriving DecidableEq, Repr

namespace Config

/-- The values of this hardware (R7; decisions D6 and D7). DESIGN CHOICE of the spec, unsafe towards the
reference software: log entry 5. -/
def hardware : Config := { carrierMult := 1, amplitude := 32767 }

/-- The admissible ranges of R7: `1 <= M <= 65535` and `1 <= A <= 32767`. -/
abbrev Admissible (c : Config) : Prop :=
  1 ≤ c.carrierMult ∧ c.carrierMult ≤ 65535 ∧ 1 ≤ c.amplitude ∧ c.amplitude ≤ 32767

/-- The platform's placement of the registers, open in the spec (R7, R40, D4): nothing is known of it. Safe:
log entry 6. -/
opaque cfgBlock : Nat

/-- `CFG_BASE`, a multiple of 32 (R40). -/
def cfgBase : Nat := 32 * cfgBlock

end Config

end Sys2Proof
end

