-- ==== Sys2Proof/Machine/State.lean ====
section
/-! DEFINITION. The state of the block (10_state.md R13), the moves of its neighbours as plain data, the reasons a step
can stop, and the state right after reset (70_reset_and_hazards.md R107). -/

namespace Sys2Proof.Machine

/-- `MODE` (R21). The value 3 is never produced, so it cannot be written (93 U4). -/
inductive Mode where
  | idle
  | run
  | fault
  deriving DecidableEq, Repr

/-- `CAUSE` (R31, R100). Codes 4 to 15 are never produced, so they cannot be written (93 U5). -/
inductive Cause where
  /-- 0: no fault. -/
  | none
  /-- 1, `CFG_SYMBOL_RATE_ZERO`. -/
  | symbolRateZero
  /-- 2, `CFG_SAMPLE_RATE_ZERO`. -/
  | sampleRateZero
  /-- 3, `CFG_RATIO_NOT_INTEGRAL`. -/
  | ratioNotIntegral
  deriving DecidableEq, Repr

/-- An access on a platform's byte-addressed bus (R40): `MemWrite(addr, size, data)` or `MemRead(addr, size)`. -/
structure BusAccess where
  write : Bool
  addr : Nat
  size : Nat
  data : Word
  deriving DecidableEq, Repr

/-- One atomic move around or in the block (R12, R47): what the agenda holds. -/
inductive Event where
  /-- A clock edge with `rst` = 1 (R107). -/
  | reset
  /-- The host performs a register operation (R39, R59). -/
  | host (op : HostOp)
  /-- The platform's bus makes an access (R40). -/
  | bus (a : BusAccess)
  /-- The sink is ready, `pcm_ready` = 1: the emit step happens if it is enabled (R89). -/
  | sinkReady
  /-- The source offers the first word of its list, `sym_valid` = 1: the accept step happens if it is enabled (R88). -/
  | sourceOffers
  /-- The source, while it offers nothing, changes what it will offer (R51, R109, R114). -/
  | sourceChanges (ws : List Cmd)
  deriving DecidableEq, Repr

/-- The state. The first eleven fields are the spec's own (R13); the last five hold the block's neighbours and two
markers that statements need, and no field of the block depends on `reads`, `taken` or `runBase` (log entry 2). -/
structure State where
  /-- `SAMPLE_RATE` (R26). -/
  sampleRate : Word
  /-- `SYMBOL_RATE` (R27). -/
  symbolRate : Word
  /-- `MODE` (R21). -/
  mode : Mode
  /-- `BUSY` (R22). -/
  busy : Bool
  /-- `STOP_PENDING` (R23). -/
  stopPending : Bool
  /-- `SPS` (R30). -/
  sps : Word
  /-- `CAUSE` (R31). -/
  cause : Cause
  /-- `CUR` (R17). -/
  cur : Cmd
  /-- `NIDX` (R18). -/
  nidx : Word
  /-- `PHASE` (R19). -/
  phase : Word
  /-- `OUT` (R34): every word pushed to the sink, oldest first. -/
  out : List Sample
  /-- The words the source has still to hand over, in order (R41, R87). -/
  source : List Cmd
  /-- The events still to happen, next one first (R12, R47). -/
  agenda : List Event
  /-- What `cfg_rdata` carried in the host's reads, oldest first (R37, R60). -/
  reads : List Word
  /-- The words taken since the run began (R87, R113). -/
  taken : List Cmd
  /-- The length of `OUT` when the run began: R34, "OUT is taken to be empty at the reset or START that begins the run".
  A failed `START` sets it too (R113). -/
  runBase : Nat
  deriving DecidableEq, Repr

/-- The reasons a step stops with a fault. There is none: the block's one exception, `ConfigurationError`, is a next
state with `MODE = FAULT` (R104), and R101 lists the faults it does not have. Safe: nothing is hidden by an empty
list (log entry 17). -/
inductive Fault where
  deriving DecidableEq, Repr

/-- The reasons a step is refused. -/
inductive Refusal where
  /-- An instruction without a meaning; raised only by an arm of `exec` that rejects by name. Safe. No arm does. -/
  | notModelled (mnemonic : String)
  /-- The platform's bus asks for an access that is not four bytes wide. Raised by the event `bus`; R40: "A model
  gives such an access no meaning (refusal, not a value)". Safe. -/
  | busAccessSize (size : Nat)
  /-- The bus access is not at a multiple of four (R40). Raised by the event `bus`. Safe. -/
  | busAccessMisaligned (addr : Nat)
  /-- The bus access lies outside the eight registers' 32 bytes (R40). Raised by the event `bus`. Safe. -/
  | busAccessOutside (addr : Nat)
  deriving DecidableEq, Repr

/-- The state right after reset (R107): every register at the value of R107's table, nothing pushed, nothing offered,
nothing to happen. -/
def State.reset : State where
  sampleRate := 0#32
  symbolRate := 0#32
  mode := .idle
  busy := false
  stopPending := false
  sps := 0#32
  cause := .none
  cur := 0#3
  nidx := 0#32
  phase := 0#32
  out := []
  source := []
  agenda := []
  reads := []
  taken := []
  runBase := 0

end Sys2Proof.Machine
end

