-- ==== Sys2Proof/Machine/Bus.lean ====
section
/-! DEFINITION. The byte-address view of the registers on a platform's bus (20_memory.md R40, 00_scope.md R11). -/

namespace Sys2Proof.Machine

/-- The bus bridge: an aligned four-byte access to the 32 bytes from `CFG_BASE` on is the host operation on register
`(addr - CFG_BASE) / 4`; every other access is refused and never reaches the block (R40). -/
def busToHost (a : BusAccess) : Except Refusal HostOp :=
  if a.size ≠ 4 then .error (.busAccessSize a.size)
  else if a.addr % 4 ≠ 0 then .error (.busAccessMisaligned a.addr)
  else if a.addr < Config.cfgBase ∨ Config.cfgBase + 31 < a.addr then .error (.busAccessOutside a.addr)
  else .ok { we := a.write, addr := BitVec.ofNat 3 ((a.addr - Config.cfgBase) / 4), wdata := a.data }

end Sys2Proof.Machine
end

