-- ==== Sys2Proof/Machine/Flags.lean ====
section
/-! DEFINITION. The flag views: `STATUS` and `CAUSE` as words, and the output signals that depend on flags alone
(10_state.md R29, R31; 20_memory.md R37, R38; 60_exceptions.md R102). There are no arithmetic flags (R24). -/

namespace Sys2Proof.Machine

/-- The two-bit code of `MODE` (R21). -/
def Mode.code : Mode → BitVec 2
  | .idle => 0#2
  | .run => 1#2
  | .fault => 2#2

/-- The four-bit code of `CAUSE` (R31). -/
def Cause.code : Cause → BitVec 4
  | .none => 0#4
  | .symbolRateZero => 1#4
  | .sampleRateZero => 2#4
  | .ratioNotIntegral => 3#4

/-- The read value of `STATUS`: 28 zeros, `STOP_PENDING`, `BUSY`, `MODE[1:0]` (R29). -/
def State.statusWord (s : State) : Word :=
  0#28 ++ BitVec.ofBool s.stopPending ++ BitVec.ofBool s.busy ++ s.mode.code

/-- The read value of `CAUSE`: 28 zeros, `CAUSE[3:0]` (R31). -/
def State.causeWord (s : State) : Word :=
  0#28 ++ s.cause.code

/-- `sym_ready = (MODE = RUN) and (BUSY = 0)` (R38). -/
def State.symReady (s : State) : Bool :=
  s.mode == .run && !s.busy

/-- `pcm_valid = BUSY` (R38). -/
def State.pcmValid (s : State) : Bool :=
  s.busy

/-- `fault` is 1 exactly when `MODE = FAULT` (R102). -/
def State.faultPin (s : State) : Bool :=
  s.mode == .fault

end Sys2Proof.Machine
end

