-- ==== Sys2Proof/Machine/Operands.lean ====
section
/-! DEFINITION. Operand assembly (30_encoding.md R53) and the symbol-to-phase mapper (41_synthesis_datapath.md R73). -/

namespace Sys2Proof.Machine

/-- The blank flag `CUR[2]` (R52). -/
def isBlank (w : Cmd) : Bool :=
  w.getLsbD 2

/-- The symbol value `s = CUR[1:0]`, zero-extended: the count of quarter turns (R53). -/
def symbolValue (w : Cmd) : Nat :=
  (w.extractLsb' 0 2).toNat

/-- The in-phase weight `I = cos(s * 90 degrees)` (R73). -/
def inPhaseWeight : Nat → Int
  | 0 => 1
  | 2 => -1
  | _ => 0

/-- The quadrature weight `Q = sin(s * 90 degrees)` (R73). -/
def quadratureWeight : Nat → Int
  | 1 => 1
  | 3 => -1
  | _ => 0

end Sys2Proof.Machine
end

