-- ==== Sys2Proof/Machine/Synthesis.lean ====
section
/-! DEFINITION. The synthesis datapath (41_synthesis_datapath.md): the quantised sine, the value of one sample in both
forms, the word of one sample, and the meaning of a whole command stream (42_symbol_commands.md R90, R96).

The quantised sine is exact. R75 asks for the integer nearest to the real number `A * sin`, so the model never evaluates
a sine: it decides, in integers, whether the sine of a fraction of a turn reaches the bound `(2k-1)/(2A)` from which the
product rounds to `k`. Let `f` be the angle with `cos f = p/q`, `p = 2k-1`, `q = 2A`. The question is how many half turns
`2N * f` contains. The powers of `p + i * sqrt(q^2 - p^2)` have the angles `h * f` and stay in the ring of the numbers
`x + y * i * sqrt(q^2 - p^2)` with integers `x` and `y`, so the signs of `x` and `y`, taken along the binary digits of the
exponent, count the half turns exactly (log entry 9). -/

namespace Sys2Proof.Machine

/-! ### The exact quantised sine -/

/-- A power of `p + i * sqrt(d)` and the half turns in its angle: the power is `x + y * i * sqrt(d)`, and its angle lies
in half turn number `halfTurns` (from that many half turns on, short of one more). -/
structure Winding where
  x : Int
  y : Int
  halfTurns : Nat
  deriving DecidableEq, Repr

/-- Is `v` strictly positive, or strictly negative in an odd half turn? -/
def agreesWithHalfTurn (m : Nat) (v : Int) : Bool :=
  if m % 2 = 0 then decide (0 < v) else decide (v < 0)

/-- The square: the angle doubles. Its half turns double, and one more is full when the old angle had reached the middle
of its half turn, where the cosine leaves the side it had. -/
def windingDouble (d : Int) (w : Winding) : Winding where
  x := w.x * w.x - d * (w.y * w.y)
  y := 2 * (w.x * w.y)
  halfTurns := if agreesWithHalfTurn w.halfTurns w.x then 2 * w.halfTurns else 2 * w.halfTurns + 1

/-- One factor `p + i * sqrt(d)` more: the angle grows by less than a half turn, and one more half turn is full when
the sine leaves the side it had. -/
def windingAdd (p d : Int) (w : Winding) : Winding where
  x := p * w.x - d * w.y
  y := p * w.y + w.x
  halfTurns :=
    if agreesWithHalfTurn w.halfTurns (p * w.y + w.x) then w.halfTurns else w.halfTurns + 1

/-- From the power with exponent `n / 2^i` to the power with exponent `n`, along the lower `i` binary digits of `n`. -/
def windingPower (p d : Int) (n : Nat) : Nat → Winding → Winding
  | 0, w => w
  | i + 1, w =>
    if n.testBit i then windingPower p d n i (windingAdd p d (windingDouble d w))
    else windingPower p d n i (windingDouble d w)

/-- How many whole half turns `n * f` contains, where `cos f = p/q` and `f` lies strictly between 0 and a half turn. -/
def halfTurnsIn (p q : Int) (n : Nat) : Nat :=
  (windingPower p (q * q - p * p) n (Nat.log2 n + 1) { x := 1, y := 0, halfTurns := 0 }).halfTurns

/-- Does the sine of `u/(4N)` turn (`0 <= u <= N`) reach `(2k-1)/(2A)`, the bound from which `A * sin` rounds to `k` or
more (R76: a tie goes away from zero, so the bound itself counts)? Its angle from the peak is `(N-u)/(2N)` half turns. -/
def sineReaches (A N u k : Nat) : Bool :=
  decide (N - u ≤ halfTurnsIn (2 * (k : Int) - 1) (2 * (A : Int)) (2 * N))

/-- The largest `k` in `lo <= k < hi` that is good, by bisection, when `good` falls from true to false once and `lo` is
good. -/
def largestGood (good : Nat → Bool) : Nat → Nat → Nat → Nat
  | 0, lo, _ => lo
  | fuel + 1, lo, hi =>
    if lo + 1 < hi then
      if good ((lo + hi) / 2) then largestGood good fuel ((lo + hi) / 2) hi
      else largestGood good fuel lo ((lo + hi) / 2)
    else lo

/-- `rnd(A * sin)` of `u/(4N)` turn in the first quarter, `0 <= u <= N`. Sixteen bisections cover `A < 65536`. -/
def qsinQuarter (A N u : Nat) : Nat :=
  largestGood (sineReaches A N u) 16 0 (A + 1)

/-- `QSIN(t, D) = rnd(A * sin_turn((t mod D) / D))` for `D` a multiple of 4 (R75), unfolded from the first quarter. -/
def qsin (A : Nat) (t : Int) (D : Nat) : Int :=
  let r := (t % (D : Int)).toNat
  let N := D / 4
  if r ≤ N then (qsinQuarter A N r : Int)
  else if r ≤ 2 * N then (qsinQuarter A N (2 * N - r) : Int)
  else if r ≤ 3 * N then -(qsinQuarter A N (r - 2 * N) : Int)
  else -(qsinQuarter A N (4 * N - r) : Int)

/-- `QCOS(t, D) = QSIN(t + D/4, D)` (R79). -/
def qcos (A : Nat) (t : Int) (D : Nat) : Int :=
  qsin A (t + (D / 4 : Nat)) D

/-! ### Phase and sample -/

/-- `(PHASE + M) mod SPS` (R71). -/
def nextPhase (M N phase : Nat) : Nat :=
  (phase + M) % N

/-- The phase at sample `n` of a symbol, `(M * n) mod N` (R72). -/
def phaseAt (M N n : Nat) : Nat :=
  (M * n) % N

/-- The total phase `t = (4 * PHASE + s * N) mod 4N` (R74). -/
def totalPhase (N phase s : Nat) : Nat :=
  (4 * phase + s * N) % (4 * N)

/-- The value of a sample, direct form (R80). -/
def sampleValue (A N phase s : Nat) : Int :=
  qsin A (totalPhase N phase s) (4 * N)

/-- The value of a sample, I/Q form (R80). -/
def sampleValueIQ (A N phase s : Nat) : Int :=
  inPhaseWeight s * qsin A (4 * phase : Nat) (4 * N) + quadratureWeight s * qcos A (4 * phase : Nat) (4 * N)

/-- `tc16(k)`, the 16-bit two's complement word (R10). -/
def tc16 (k : Int) : Sample :=
  BitVec.ofInt 16 k

/-- The word of a sample for the command word `w` at accumulator value `phase` (R81). -/
def sampleWord (c : Config) (N phase : Nat) (w : Cmd) : Sample :=
  if isBlank w then 0#16 else tc16 (sampleValue c.amplitude N phase (symbolValue w))

/-! ### Whole commands and whole streams -/

/-- `word(w, n)` of R90. -/
def wordOf (c : Config) (N : Nat) (w : Cmd) (n : Nat) : Sample :=
  sampleWord c N (phaseAt c.carrierMult N n) w

/-- `run(w)` of R90: the `N` words of one command. -/
def runOf (c : Config) (N : Nat) (w : Cmd) : List Sample :=
  (List.range N).map (wordOf c N w)

/-- `modulate(N, ws)` of R96: the runs of the commands, one after another. -/
def modulate (c : Config) (N : Nat) (ws : List Cmd) : List Sample :=
  ws.flatMap (runOf c N)

end Sys2Proof.Machine
end

