-- ==== Sys2Proof/Machine/Ops.lean ====
section
/-! DEFINITION. The named operations over the state: each writes exactly the fields the rule it cites writes. The one
exception entry stands here (60_exceptions.md R104) beside its only way out, the reset of the block (R105, R107). -/

namespace Sys2Proof.Machine

/-! ### Registers -/

/-- The read value of register `reg` (R25, R60). -/
def State.cfgRead (reg : BitVec 3) (s : State) : Word :=
  match reg.toNat with
  | 0 => s.sampleRate
  | 1 => s.symbolRate
  | 2 => 0#32
  | 3 => s.statusWord
  | 4 => s.sps
  | 5 => s.causeWord
  | _ => 0#32      -- reserved registers 6 and 7 (R32)

/-- The host's port carries `v` as read data: no state of the block is written (R60); the value is kept on the host's
side of the port (log entry 2). -/
def State.logRead (v : Word) (s : State) : State :=
  { s with reads := s.reads ++ [v] }

/-- `SAMPLE_RATE <- v`. -/
def State.setSampleRate (v : Word) (s : State) : State :=
  { s with sampleRate := v }

/-- `SYMBOL_RATE <- v`. -/
def State.setSymbolRate (v : Word) (s : State) : State :=
  { s with symbolRate := v }

/-! ### Modes -/

/-- `raise ConfigurationError(c)`: `MODE <- FAULT; CAUSE <- c`, and nothing more of the block (R104). The run whose
`START` raised it "has ended at once with `OUT` empty" (R113), so the markers of a run restart here too (log entry 8). -/
def State.raiseConfigurationError (c : Cause) (s : State) : State :=
  { s with mode := .fault, cause := c, taken := [], runBase := s.out.length }

/-- The reset of the block, by `rst` or `SRST` (R107, R65): every register to its reset value. What the neighbours hold
stays: R107, "`OUT` is not in the block and is not recalled by reset". The run in progress is over (R34, log entry 8). -/
def State.resetBlock (s : State) : State :=
  { State.reset with
    out := s.out, source := s.source, agenda := s.agenda, reads := s.reads, runBase := s.out.length }

/-- The success branch of `START` (R63): `SPS` latched, the datapath cleared, `MODE <- RUN`. `CUR` is cleared with `NIDX`
and `PHASE` (R113, R15, R16, and decision D14; log entry 23). A run begins here, so `OUT` is counted from here (R113). -/
def State.beginRun (s : State) : State :=
  { s with
    sps := s.sampleRate / s.symbolRate, mode := .run, busy := false, stopPending := false,
    cur := 0#3, nidx := 0#32, phase := 0#32, cause := .none, taken := [], runBase := s.out.length }

/-- `MODE <- IDLE`, the `STOP` of a block between symbols (R64). -/
def State.endRun (s : State) : State :=
  { s with mode := .idle }

/-- `STOP_PENDING <- 1` (R64). -/
def State.requestStop (s : State) : State :=
  { s with stopPending := true }

/-! ### Streams -/

/-- The writes of the accept step for the word `w` (R88). -/
def State.takeWord (w : Cmd) (s : State) : State :=
  { s with cur := w, busy := true, nidx := 0#32, phase := 0#32, taken := s.taken ++ [w] }

/-- `PcmPush(x)` (R42). -/
def State.pushSample (x : Sample) (s : State) : State :=
  { s with out := s.out ++ [x] }

/-- After the last sample of a symbol (R89): the block is between symbols, and a pending stop takes effect. -/
def State.finishSymbol (s : State) : State :=
  { s with
    nidx := 0#32, phase := 0#32, busy := false, stopPending := false,
    mode := if s.stopPending then .idle else s.mode }

/-- After any other sample of a symbol (R89): `NIDX <- NIDX + 1`, `PHASE <- (PHASE + M) mod SPS` (R71). -/
def State.advanceSample (M : Nat) (s : State) : State :=
  { s with nidx := s.nidx + 1#32, phase := BitVec.ofNat 32 (nextPhase M s.sps.toNat s.phase.toNat) }

/-! ### The neighbours -/

/-- What the source will offer from now on. -/
def State.setSource (ws : List Cmd) (s : State) : State :=
  { s with source := ws }

/-- What is still to happen. -/
def State.setAgenda (es : List Event) (s : State) : State :=
  { s with agenda := es }

end Sys2Proof.Machine
end

