-- ==== Sys2Proof/Machine/Streams.lean ====
section
/-! DEFINITION. The two steps by which the block executes a command word: accept (42_symbol_commands.md R88) and emit
(R89), and what `pcm_data` shows (41_synthesis_datapath.md R81). -/

namespace Sys2Proof.Machine

/-- The accept step for the word `w` (R88). Not enabled, it is a wait and no error: nothing changes and the word stays
with the source. -/
def State.acceptCommand (w : Cmd) (s : State) : State :=
  if s.symReady then s.takeWord w else s

/-- The word that `pcm_data` carries while `BUSY = 1` (R81), from `CUR`, `PHASE` and `SPS`. -/
def State.nextSample (c : Config) (s : State) : Sample :=
  sampleWord c s.sps.toNat s.phase.toNat s.cur

/-- `NIDX = SPS - 1`, on integers (R10): the sample about to be pushed is the symbol's last. -/
def State.atLastSample (s : State) : Bool :=
  s.nidx.toNat + 1 == s.sps.toNat

/-- The emit step with the sink ready (R89): nothing happens unless `BUSY = 1`. -/
def State.emitSample (c : Config) (s : State) : State :=
  if s.busy then
    if s.atLastSample then (s.pushSample (s.nextSample c)).finishSymbol
    else (s.pushSample (s.nextSample c)).advanceSample c.carrierMult
  else s

/-- `n` emit steps one after another. -/
def State.emitSamples (c : Config) : Nat → State → State
  | 0, s => s
  | n + 1, s => State.emitSamples c n (s.emitSample c)

/-- `pcm_data`, shown only while `pcm_valid = 1` (R38; 93 U1: otherwise any value, so it is not exposed). -/
def State.pcmData (c : Config) (s : State) : Option Sample :=
  if s.pcmValid then some (s.nextSample c) else none

end Sys2Proof.Machine
end

