-- ==== Sys2Proof/Machine/Commands.lean ====
section
/-! DEFINITION. The five command words (42_symbol_commands.md R91 to R95). A command word is executed by its accept step,
which is the meaning here, and by `SPS` emit steps (R90), each of which is a step of the machine of its own
(`State.emitSample`), so that the host can stop or reset between two samples (R64, R65). -/

namespace Sys2Proof.Machine

open Host (Outcome)

/-- `SYM0`, `sym_data = 000` (R91). -/
def execSym0 (s : State) : Outcome State Fault Refusal :=
  .next (s.acceptCommand 0b000#3)

/-- `SYM1`, `sym_data = 001` (R92). -/
def execSym1 (s : State) : Outcome State Fault Refusal :=
  .next (s.acceptCommand 0b001#3)

/-- `SYM2`, `sym_data = 010` (R93). -/
def execSym2 (s : State) : Outcome State Fault Refusal :=
  .next (s.acceptCommand 0b010#3)

/-- `SYM3`, `sym_data = 011` (R94). -/
def execSym3 (s : State) : Outcome State Fault Refusal :=
  .next (s.acceptCommand 0b011#3)

/-- `BLANK`, `sym_data = 1xx` (R95). `CUR` holds the word as it came, alias bits and all (R90: `CUR = w`). -/
def execBlank (low : BitVec 2) (s : State) : Outcome State Fault Refusal :=
  .next (s.acceptCommand (1#1 ++ low))

end Sys2Proof.Machine
end

