-- ==== Sys2Proof/Machine/HostOps.lean ====
section
/-! DEFINITION. The host operations on the configuration registers (40_configuration_ops.md R59 to R68). Each is enabled
in every state and each answers a next state (R59). -/

namespace Sys2Proof.Machine

open Host (Outcome)

/-- `RD reg` (R60). The write data on the port is not used. -/
def execRd (reg : BitVec 3) (_data : Word) (s : State) : Outcome State Fault Refusal :=
  .next (s.logRead (s.cfgRead reg))

/-- `WR SAMPLE_RATE, v`: honoured in `IDLE` only (R61). -/
def execWrSampleRate (v : Word) (s : State) : Outcome State Fault Refusal :=
  .next (if s.mode = .idle then s.setSampleRate v else s)

/-- `WR SYMBOL_RATE, v`: honoured in `IDLE` only (R62). -/
def execWrSymbolRate (v : Word) (s : State) : Outcome State Fault Refusal :=
  .next (if s.mode = .idle then s.setSymbolRate v else s)

/-- What the check of `START` finds, in the order of R103: a cause, or none when the rates pass (R100). -/
def State.configurationCheck (s : State) : Cause :=
  if s.symbolRate = 0#32 then .symbolRateZero
  else if s.sampleRate = 0#32 then .sampleRateZero
  else if s.sampleRate % s.symbolRate = 0#32 then .none
  else .ratioNotIntegral

/-- `START` on a state: acts only in `IDLE`, begins a run or raises `ConfigurationError` (R63). -/
def State.startRun (s : State) : State :=
  if s.mode = .idle then
    match s.configurationCheck with
    | .none => s.beginRun
    | c => s.raiseConfigurationError c
  else s

/-- `START` (R63). -/
def execStart (_v : Word) (s : State) : Outcome State Fault Refusal :=
  .next s.startRun

/-- `STOP` (R64): acts only in `RUN`; at once between symbols, else after the symbol in progress. -/
def execStop (_v : Word) (s : State) : Outcome State Fault Refusal :=
  .next (if s.mode = .run then (if s.busy then s.requestStop else s.endRun) else s)

/-- `SRST` (R65): the reset of the block, in every mode. -/
def execSrst (_v : Word) (s : State) : Outcome State Fault Refusal :=
  .next s.resetBlock

/-- `CTRL` written with bits 2 to 0 clear (R66): nothing. -/
def execCtrlNop (_v : Word) (s : State) : Outcome State Fault Refusal :=
  .next s

/-- Write to `STATUS` (R67): ignored. -/
def execWrRoStatus (_v : Word) (s : State) : Outcome State Fault Refusal :=
  .next s

/-- Write to `SPS` (R67): ignored. -/
def execWrRoSps (_v : Word) (s : State) : Outcome State Fault Refusal :=
  .next s

/-- Write to `CAUSE` (R67): ignored; it does not clear a fault. -/
def execWrRoCause (_v : Word) (s : State) : Outcome State Fault Refusal :=
  .next s

/-- Write to register 6 or 7 (R68): ignored. -/
def execWrRsvd (_reg : BitVec 3) (_v : Word) (s : State) : Outcome State Fault Refusal :=
  .next s

end Sys2Proof.Machine
end

