-- ==== Sys2Proof/Machine/Dispatch.lean ====
section
/-! DEFINITION. The dispatch: one arm per row of spec/opcode_table.json, each a call of that row's own meaning. -/

namespace Sys2Proof.Machine

/-- The effect of one instruction. -/
def exec (i : Instr) (s : State) : Host.Outcome State Fault Refusal :=
  match i with
  | .sym0 => Sys2Proof.Machine.execSym0 s
  | .sym1 => Sys2Proof.Machine.execSym1 s
  | .sym2 => Sys2Proof.Machine.execSym2 s
  | .sym3 => Sys2Proof.Machine.execSym3 s
  | .blank low => Sys2Proof.Machine.execBlank low s
  | .rd reg data => Sys2Proof.Machine.execRd reg data s
  | .wrSampleRate v => Sys2Proof.Machine.execWrSampleRate v s
  | .wrSymbolRate v => Sys2Proof.Machine.execWrSymbolRate v s
  | .srst v => Sys2Proof.Machine.execSrst v s
  | .stop v => Sys2Proof.Machine.execStop v s
  | .start v => Sys2Proof.Machine.execStart v s
  | .ctrlNop v => Sys2Proof.Machine.execCtrlNop v s
  | .wrRoStatus v => Sys2Proof.Machine.execWrRoStatus v s
  | .wrRoSps v => Sys2Proof.Machine.execWrRoSps v s
  | .wrRoCause v => Sys2Proof.Machine.execWrRoCause v s
  | .wrRsvd reg v => Sys2Proof.Machine.execWrRsvd reg v s

end Sys2Proof.Machine
end

