-- ==== Sys2Proof/Machine/Events.lean ====
section
/-! DEFINITION. What one event does (00_scope.md R12, 20_memory.md R47), what one clock edge is made of (R48), and how a
word is put where the next step takes it. -/

namespace Sys2Proof.Machine

open Host (Outcome)

/-- The effect of one event. An event whose step is not enabled changes nothing: a wait, not an error (R38, R88, R89). -/
def perform (e : Event) (s : State) : Outcome State Fault Refusal :=
  match e with
  | .reset => .next s.resetBlock
  | .host op => exec (decodeHost op) s
  | .bus a =>
    match busToHost a with
    | .ok op => exec (decodeHost op) s
    | .error r => .refused r
  | .sinkReady => .next (s.emitSample Config.hardware)
  | .sourceOffers =>
    match s.source with
    | [] => .next s
    | w :: ws => if s.symReady then exec (decodeSymbol w) (s.setSource ws) else .next s
  | .sourceChanges ws => .next (s.setSource ws)

/-- The next event happens; with nothing to happen, the block waits. -/
def nextStep (s : State) : Outcome State Fault Refusal :=
  match s.agenda with
  | [] => .next s
  | e :: rest => perform e (s.setAgenda rest)

/-! ### Clock edges -/

/-- The inputs of one rising clock edge (R37): `rst`; `cfg_en` with the operation; `pcm_ready`; `sym_valid`, where
`sym_data` is the first word of the source's list. -/
structure Edge where
  rst : Bool
  cfg : Option HostOp
  pcmReady : Bool
  symValid : Bool
  deriving DecidableEq, Repr

/-- The atomic steps an edge is made of, in the order of R48: "host operation first, then emit, then accept". While `rst`
is 1 no other step occurs (R107). -/
def edgeEvents (g : Edge) : List Event :=
  if g.rst then [.reset]
  else (g.cfg.toList.map .host) ++ (if g.pcmReady then [.sinkReady] else []) ++
    (if g.symValid then [.sourceOffers] else [])

/-! ### A word for the next step -/

/-- A block that can take a command word: the state after the start-up sequence of R109 with the configuration the
source exhibits, 48000 and 6000 (R69). -/
def State.readyBlock (s : State) : State :=
  ((s.resetBlock.setSampleRate 48000#32).setSymbolRate 6000#32).startRun

/-- `s` with a port word for the next step: a host operation first on the agenda; a command word first in the source's
list and offered, the block made ready for it if it was not (log entry 3). -/
def State.placeWord (p : PortWord) (s : State) : State :=
  match p with
  | .host op => s.setAgenda (.host op :: s.agenda)
  | .sym w =>
    let t := if s.symReady then s else s.readyBlock
    (t.setSource (w :: t.source)).setAgenda (.sourceOffers :: t.agenda)

end Sys2Proof.Machine
end

