-- ==== Sys2Proof/Machine/Step.lean ====
section
/-! DEFINITION. The step of the machine, and the state in which the next step runs a given word of the opcode table. -/

namespace Sys2Proof.Machine

/-- One atomic step (R12). -/
def step (s : State) : Host.Outcome State Fault Refusal :=
  nextStep s

/-- `s` with the word of an opcode-table row where the next step takes it (log entries 3 and 4). -/
def State.withFetchWord (s : State) (nbits w : Nat) : State :=
  match portWordOfTable nbits w with
  | some p => s.placeWord p
  | none => s

end Sys2Proof.Machine
end

