-- ==== Sys2Proof/Machine/Assembler.lean ====
section
/-! DEFINITION. The assembler's pseudo-instructions (30_encoding.md R58), each the words it expands to, written with the
syntax of R57. The block sees only the expansions. -/

namespace Sys2Proof.Machine

/-- `SYM k` (R57): `sym_data` is a zero bit and `k[1:0]`. -/
def symWord (k : BitVec 2) : Cmd :=
  0#1 ++ k

/-- The canonical `BLANK` (R57). -/
def blankWord : Cmd :=
  0b100#3

/-- `BYTE b`: four symbols, most significant dibit first. -/
def byteWords (b : BitVec 8) : List Cmd :=
  [symWord (b.extractLsb' 6 2), symWord (b.extractLsb' 4 2), symWord (b.extractLsb' 2 2), symWord (b.extractLsb' 0 2)]

/-- `TONE k, r`. -/
def toneWords (k : BitVec 2) (r : Nat) : List Cmd :=
  List.replicate r (symWord k)

/-- `SILENCE r`. -/
def silenceWords (r : Nat) : List Cmd :=
  List.replicate r blankWord

/-- `START`, `STOP` and `SRST` of R57: writes of 1, 2 and 4 to `CTRL`. -/
def startOp : HostOp := hostWrite 2#3 1#32

/-- `STOP`. -/
def stopOp : HostOp := hostWrite 2#3 2#32

/-- `SRST`. -/
def srstOp : HostOp := hostWrite 2#3 4#32

/-- `CONFIG sr, yr`. -/
def configOps (sr yr : Word) : List HostOp :=
  [hostWrite 0#3 sr, hostWrite 1#3 yr, startOp]

end Sys2Proof.Machine
end

