-- ==== Sys2Proof/Safety.lean ====
section
/-! DEFINITION. What statements about the block are made of: the state invariants of 10_state.md R36, the account of
`OUT` (42_symbol_commands.md R97), rounding (41_synthesis_datapath.md R76), runs of several steps, and the classes of
events that rules speak of. -/

namespace Sys2Proof.Machine

/-! ### Invariants -/

/-- The relations between registers that R36 states for every reachable state, (b) to (g); (a) holds by the type of
`mode`. -/
structure State.RegistersInv (c : Config) (s : State) : Prop where
  /-- R36 (b). -/
  busy_run : s.busy = true → s.mode = .run
  /-- R36 (c). -/
  stop_busy : s.stopPending = true → s.busy = true
  /-- R36 (d): `SPS >= 1`. -/
  run_sps : s.mode = .run → 1 ≤ s.sps.toNat
  /-- R36 (d): `SPS = SAMPLE_RATE div SYMBOL_RATE`. -/
  run_quotient : s.mode = .run → s.sps.toNat = s.sampleRate.toNat / s.symbolRate.toNat
  /-- R36 (d): `SAMPLE_RATE mod SYMBOL_RATE = 0`. -/
  run_exact : s.mode = .run → s.sampleRate.toNat % s.symbolRate.toNat = 0
  /-- R36 (e): `NIDX < SPS`. -/
  busy_index : s.busy = true → s.nidx.toNat < s.sps.toNat
  /-- R36 (e): `PHASE = (M * NIDX) mod SPS`. -/
  busy_phase : s.busy = true → s.phase.toNat = phaseAt c.carrierMult s.sps.toNat s.nidx.toNat
  /-- R36 (f). -/
  rest_index : s.busy = false → s.nidx = 0#32
  /-- R36 (f). -/
  rest_phase : s.busy = false → s.phase = 0#32
  /-- R36 (g). -/
  cause_fault : s.cause ≠ .none ↔ s.mode = .fault

/-- What `OUT` holds since the run began: the complete runs of the commands finished so far, followed by the first `NIDX`
words of the command in progress (R97). -/
structure State.OutputInv (c : Config) (s : State) : Prop where
  base_le : s.runBase ≤ s.out.length
  between : s.busy = false → s.out.drop s.runBase = modulate c s.sps.toNat s.taken
  within : s.busy = true → ∃ ws, s.taken = ws ++ [s.cur] ∧
    s.out.drop s.runBase = modulate c s.sps.toNat ws ++ (runOf c s.sps.toNat s.cur).take s.nidx.toNat

/-- No sample pushed is the word `0x8000` (R82). -/
def State.NoFullNegative (s : State) : Prop :=
  ∀ x ∈ s.out, x ≠ 0x8000#16

/-- Every invariant of the machine as it is built. -/
structure State.Inv (s : State) : Prop where
  registers : s.RegistersInv Config.hardware
  output : s.OutputInv Config.hardware
  range : s.NoFullNegative

/-! ### Rounding -/

/-- `k = rnd(x)`: nearest integer, ties away from zero, in the symbols of R76. -/
def RoundsTo (x : ℝ) (k : ℤ) : Prop :=
  (0 ≤ x → k = ⌊x + 1 / 2⌋) ∧ (x < 0 → k = -⌊-x + 1 / 2⌋)

/-! ### Several steps -/

/-- `k` steps, each answering a next state. -/
def runSteps : Nat → State → Host.Outcome State Fault Refusal
  | 0, s => .next s
  | k + 1, s =>
    match step s with
    | .next t => runSteps k t
    | .fault r => .fault r
    | .refused r => .refused r

/-- The events of one command when nothing else happens: the word is offered, then the sink is ready `n` times. -/
def commandEvents (n : Nat) : List Event :=
  .sourceOffers :: List.replicate n .sinkReady

/-- The events of `l` commands one after another. -/
def streamEvents (n l : Nat) : List Event :=
  (List.replicate l (commandEvents n)).flatten

/-! ### Events by what they may do -/

/-- The host operation an event brings to the block, over the configuration port or over the bus. -/
def Event.hostOp : Event → Option HostOp
  | .host op => some op
  | .bus a => (busToHost a).toOption
  | _ => none

/-- The instruction an event brings from the host. -/
def Event.hostInstr (e : Event) : Option Instr :=
  e.hostOp.map decodeHost

/-- The event resets the block: `rst`, or an `SRST` operation (R107). -/
def Event.isReset (e : Event) : Bool :=
  e == .reset || match e.hostInstr with
    | some (.srst _) => true
    | _ => false

/-- The event is a `START` operation. -/
def Event.isStart (e : Event) : Bool :=
  match e.hostInstr with
  | some (.start _) => true
  | _ => false

/-- The event is a `STOP` operation. -/
def Event.isStop (e : Event) : Bool :=
  match e.hostInstr with
  | some (.stop _) => true
  | _ => false

end Sys2Proof.Machine
end

