-- ==== Sys2Proof/Certificates/Slice0/Obligations.lean ====
section
/-! DEFINITION. The statements about the block, each formalising rules of spec/ (named in its docstring). Where a statement
gives `exec` or a step as an equation with a record update, the update lists every field that changes, so the equation is
also the instruction's frame: every field it does not list is unchanged. The fields `reads`, `taken` and `runBase` are the
model's own (log entry 2). -/

open Sys2Proof Sys2Proof.Machine Host

/-! ### Encoding -/

/-- R54: the eight patterns of format S. -/
def Obligations.SymbolWordsDecode : Prop :=
  decode (.sym 0b000#3) = .sym0 ∧ decode (.sym 0b001#3) = .sym1 ∧
  decode (.sym 0b010#3) = .sym2 ∧ decode (.sym 0b011#3) = .sym3 ∧
  decode (.sym 0b100#3) = .blank 0b00#2 ∧ decode (.sym 0b101#3) = .blank 0b01#2 ∧
  decode (.sym 0b110#3) = .blank 0b10#2 ∧ decode (.sym 0b111#3) = .blank 0b11#2

/-- R55, R57: host operations written out from the table and from the encodings of program P1 and P4. -/
def Obligations.HostWordsDecode : Prop :=
  decode (.host { we := false, addr := 0b011#3, wdata := 0#32 }) = .rd 3#3 0#32 ∧
  decode (.host { we := true, addr := 0b000#3, wdata := 0x0000BB80#32 }) = .wrSampleRate 48000#32 ∧
  decode (.host { we := true, addr := 0b001#3, wdata := 0x00001770#32 }) = .wrSymbolRate 6000#32 ∧
  decode (.host { we := true, addr := 0b010#3, wdata := 0x00000001#32 }) = .start 1#32 ∧
  decode (.host { we := true, addr := 0b010#3, wdata := 0x00000002#32 }) = .stop 2#32 ∧
  decode (.host { we := true, addr := 0b010#3, wdata := 0x00000004#32 }) = .srst 4#32 ∧
  decode (.host { we := true, addr := 0b010#3, wdata := 0x00000007#32 }) = .srst 7#32 ∧
  decode (.host { we := true, addr := 0b010#3, wdata := 0x00000003#32 }) = .stop 3#32 ∧
  decode (.host { we := true, addr := 0b010#3, wdata := 0xFFFFFFF8#32 }) = .ctrlNop 0xFFFFFFF8#32 ∧
  decode (.host { we := true, addr := 0b011#3, wdata := 5#32 }) = .wrRoStatus 5#32 ∧
  decode (.host { we := true, addr := 0b100#3, wdata := 5#32 }) = .wrRoSps 5#32 ∧
  decode (.host { we := true, addr := 0b101#3, wdata := 0#32 }) = .wrRoCause 0#32 ∧
  decode (.host { we := true, addr := 0b110#3, wdata := 5#32 }) = .wrRsvd 6#3 5#32 ∧
  decode (.host { we := true, addr := 0b111#3, wdata := 0x12345678#32 }) = .wrRsvd 7#3 0x12345678#32

/-- R55 (and R54 for format S): every word of either port matches exactly one row of the opcode table, and the decoder
gives that row's instruction. -/
def Obligations.DecoderFollowsOpcodeTable : Prop :=
  ∀ w : PortWord, matchingRows w.format w.tableBits = [(decode w).mnemonic]

/-- R52, R54, R55: decoding an encoded well-formed instruction gives it back, with every operand. -/
def Obligations.DecodeEncodeRoundTrip : Prop :=
  ∀ i : Instr, i.WellFormed → decode (encode i) = i

/-- R56: every word of either port stands for a well-formed instruction, and its encoding is that very word. That this
holds of the bits an instruction does not use as well (the write data of a read, the upper bits of a `CTRL` write, the data
of an ignored write) is the model's choice (log entry 15). -/
def Obligations.EncodeDecodeRoundTrip : Prop :=
  ∀ w : PortWord, (decode w).WellFormed ∧ encode (decode w) = w

/-- R58, R57: the pseudo-instructions' expansions. -/
def Obligations.PseudoInstructionsExpand : Prop :=
  (∀ b : BitVec 8, (byteWords b).map decodeSymbol =
    [b.extractLsb' 6 2, b.extractLsb' 4 2, b.extractLsb' 2 2, b.extractLsb' 0 2].map
      (fun k => match k.toNat with
        | 0 => Instr.sym0
        | 1 => .sym1
        | 2 => .sym2
        | _ => .sym3)) ∧
  (∀ k r, toneWords k r = List.replicate r (0#1 ++ k)) ∧
  (∀ r, (silenceWords r).map decodeSymbol = List.replicate r (.blank 0#2)) ∧
  (∀ sr yr, (configOps sr yr).map decodeHost = [.wrSampleRate sr, .wrSymbolRate yr, .start 1#32])

/-! ### The step -/

/-- R12, R47, R41, R40: a step runs the instruction that its event brings. The next event leaves the agenda; a host
operation, or a bus access the bridge lets through, runs its decoded instruction; an offered word is taken from the
source's list and its decoded instruction runs, when the block is ready. -/
def Obligations.StepRunsDecodedInstruction : Prop :=
  (∀ s op rest, s.agenda = .host op :: rest →
    step s = exec (decode (.host op)) { s with agenda := rest }) ∧
  (∀ s a op rest, s.agenda = .bus a :: rest → busToHost a = .ok op →
    step s = exec (decode (.host op)) { s with agenda := rest }) ∧
  (∀ s w ws rest, s.agenda = .sourceOffers :: rest → s.source = w :: ws → s.symReady = true →
    step s = exec (decode (.sym w)) { s with agenda := rest, source := ws })

/-- R88, R41, R107, R89 and the model's own moves (log entries 1, 2): what a step does when it runs no instruction. A
word offered while the block is not ready stays with the source and nothing else changes. -/
def Obligations.StepPerformsOtherEvents : Prop :=
  (∀ s, s.agenda = [] → step s = .next s) ∧
  (∀ s rest, s.agenda = .reset :: rest → step s = .next (State.resetBlock { s with agenda := rest })) ∧
  (∀ s rest, s.agenda = .sinkReady :: rest →
    step s = .next (State.emitSample Config.hardware { s with agenda := rest })) ∧
  (∀ s rest, s.agenda = .sourceOffers :: rest → s.source = [] ∨ s.symReady = false →
    step s = .next { s with agenda := rest }) ∧
  (∀ s ws rest, s.agenda = .sourceChanges ws :: rest →
    step s = .next { s with agenda := rest, source := ws }) ∧
  (∀ s a r rest, s.agenda = .bus a :: rest → busToHost a = .error r → step s = .refused r)

/-- Log entries 3 and 4 (the model's own): a word of the opcode table that is placed for the next step is run by it; a
host operation on the state as it is, a command word on a state that is ready for it. -/
def Obligations.PlacedWordRunsNext : Prop :=
  (∀ (s : State) (w : Nat), w < 8 → ∃ t, t.symReady = true ∧ (s.symReady = true → t = s) ∧
    step (s.withFetchWord 3 w) = exec (decode (.sym (BitVec.ofNat 3 w))) t) ∧
  (∀ (s : State) (w : Nat) (i : Instr), w < 128 → decodeTableWord 7 w = some i →
    step (s.withFetchWord 7 w) = exec i s)

/-- R59, R101, R56: every instruction answers a next state in every state. -/
def Obligations.EveryInstructionAnswersNext : Prop :=
  ∀ (i : Instr) (s : State), ∃ t, exec i s = .next t

/-! ### Host operations -/

/-- R60, with the codes of `MODE` (R21) and of `CAUSE` (R31, R100): a host operation that is no write is `RD`; it
answers each register's read value, in every mode, and writes no state of the block. That the value is kept in `reads`
is the model's (log entry 2). -/
def Obligations.ReadReturnsRegister : Prop :=
  (∀ op : HostOp, op.we = false → decode (.host op) = .rd op.addr op.wdata) ∧
  ∀ (s : State) (d : Word),
    exec (.rd 0#3 d) s = .next { s with reads := s.reads ++ [s.sampleRate] } ∧
    exec (.rd 1#3 d) s = .next { s with reads := s.reads ++ [s.symbolRate] } ∧
    exec (.rd 2#3 d) s = .next { s with reads := s.reads ++ [0x00000000#32] } ∧
    exec (.rd 3#3 d) s = .next { s with
      reads := s.reads ++ [0#28 ++ BitVec.ofBool s.stopPending ++ BitVec.ofBool s.busy ++
        (match s.mode with
          | .idle => 0#2
          | .run => 1#2
          | .fault => 2#2)] } ∧
    exec (.rd 4#3 d) s = .next { s with reads := s.reads ++ [s.sps] } ∧
    exec (.rd 5#3 d) s = .next { s with
      reads := s.reads ++ [match s.cause with
        | .none => 0x00000000#32
        | .symbolRateZero => 0x00000001#32
        | .sampleRateZero => 0x00000002#32
        | .ratioNotIntegral => 0x00000003#32] } ∧
    exec (.rd 6#3 d) s = .next { s with reads := s.reads ++ [0x00000000#32] } ∧
    exec (.rd 7#3 d) s = .next { s with reads := s.reads ++ [0x00000000#32] }

/-- R45, R39: a read, repeated, returns the same value, and reads change nothing but the host's list of values. -/
def Obligations.RepeatedReadsAgree : Prop :=
  ∀ (s t u : State) (reg : BitVec 3) (d e : Word), exec (.rd reg d) s = .next t → exec (.rd reg e) t = .next u →
    ∃ v, u.reads = s.reads ++ [v, v] ∧ { u with reads := s.reads } = s

/-- R61, R62: the encodings; a rate is stored in `IDLE`, whatever its value; in `RUN` and `FAULT` the write changes
nothing. -/
def Obligations.RateWritesHonouredInIdleOnly : Prop :=
  (∀ v : Word, decode (.host { we := true, addr := 0#3, wdata := v }) = .wrSampleRate v ∧
    decode (.host { we := true, addr := 1#3, wdata := v }) = .wrSymbolRate v) ∧
  ∀ (s : State) (v : Word),
    (s.mode = .idle → exec (.wrSampleRate v) s = .next { s with sampleRate := v }) ∧
    (s.mode = .idle → exec (.wrSymbolRate v) s = .next { s with symbolRate := v }) ∧
    (s.mode ≠ .idle → exec (.wrSampleRate v) s = .next s) ∧
    (s.mode ≠ .idle → exec (.wrSymbolRate v) s = .next s)

/-- R63, R100, R103, R104: the encoding of `START`; `START` outside `IDLE` is ignored; in `IDLE` the three conditions raise
their cause in their order, changing `MODE` and `CAUSE` alone of the block; otherwise `SPS` is the exact quotient and the
run begins. `taken` and `runBase` mark where a run, a failed one too, begins (log entries 2, 8); that a run begins with `CUR`
cleared is read from R113, R15, R16 and D14 (log entry 23). -/
def Obligations.StartChecksThenBeginsOrRaises : Prop :=
  (∀ v : Word, v.getLsbD 2 = false → v.getLsbD 1 = false → v.getLsbD 0 = true →
    decode (.host { we := true, addr := 2#3, wdata := v }) = .start v) ∧
  ∀ (s : State) (v : Word),
    (s.mode ≠ .idle → exec (.start v) s = .next s) ∧
    (s.mode = .idle → s.symbolRate.toNat = 0 →
      exec (.start v) s = .next { s with
        mode := .fault, cause := .symbolRateZero, taken := [], runBase := s.out.length }) ∧
    (s.mode = .idle → s.symbolRate.toNat ≠ 0 → s.sampleRate.toNat = 0 →
      exec (.start v) s = .next { s with
        mode := .fault, cause := .sampleRateZero, taken := [], runBase := s.out.length }) ∧
    (s.mode = .idle → s.symbolRate.toNat ≠ 0 → s.sampleRate.toNat ≠ 0 →
      s.sampleRate.toNat % s.symbolRate.toNat ≠ 0 →
      exec (.start v) s = .next { s with
        mode := .fault, cause := .ratioNotIntegral, taken := [], runBase := s.out.length }) ∧
    (s.mode = .idle → s.symbolRate.toNat ≠ 0 → s.sampleRate.toNat ≠ 0 →
      s.sampleRate.toNat % s.symbolRate.toNat = 0 →
      exec (.start v) s = .next { s with
        sps := BitVec.ofNat 32 (s.sampleRate.toNat / s.symbolRate.toNat), mode := .run, busy := false,
        stopPending := false, cur := 0#3, nidx := 0#32, phase := 0#32, cause := .none,
        taken := [], runBase := s.out.length })

/-- R64: the encoding of `STOP`; `STOP` acts in `RUN` only; at once between symbols, else it is remembered. -/
def Obligations.StopEndsRunOrIsRemembered : Prop :=
  (∀ v : Word, v.getLsbD 2 = false → v.getLsbD 1 = true →
    decode (.host { we := true, addr := 2#3, wdata := v }) = .stop v) ∧
  ∀ (s : State) (v : Word),
    (s.mode ≠ .run → exec (.stop v) s = .next s) ∧
    (s.mode = .run → s.busy = false → exec (.stop v) s = .next { s with mode := .idle }) ∧
    (s.mode = .run → s.busy = true → exec (.stop v) s = .next { s with stopPending := true })

/-- R65, R107, U17: the encoding of `SRST`; `SRST` in any mode puts every register of the block to its reset value, and
a clock edge with `rst` does the same. What the neighbours hold stays (`OUT` is not recalled); that the run's markers
restart is log entry 8. -/
def Obligations.SoftResetEqualsReset : Prop :=
  (∀ v : Word, v.getLsbD 2 = true → decode (.host { we := true, addr := 2#3, wdata := v }) = .srst v) ∧
  (∀ (s : State) (v : Word),
    exec (.srst v) s = .next { s with
      sampleRate := 0#32, symbolRate := 0#32, mode := .idle, busy := false, stopPending := false,
      sps := 0#32, cause := .none, cur := 0#3, nidx := 0#32, phase := 0#32,
      taken := [], runBase := s.out.length }) ∧
  (∀ (s : State) (v : Word) (rest : List Event), s.agenda = .reset :: rest →
    step s = exec (.srst v) { s with agenda := rest })

/-- R66, R67, R68: the encodings; these writes change nothing, in every mode. -/
def Obligations.IgnoredWritesChangeNothing : Prop :=
  (∀ v : Word, v.extractLsb' 0 3 = 0b000#3 →
    decode (.host { we := true, addr := 2#3, wdata := v }) = .ctrlNop v) ∧
  (∀ v : Word, decode (.host { we := true, addr := 3#3, wdata := v }) = .wrRoStatus v ∧
    decode (.host { we := true, addr := 4#3, wdata := v }) = .wrRoSps v ∧
    decode (.host { we := true, addr := 5#3, wdata := v }) = .wrRoCause v ∧
    decode (.host { we := true, addr := 6#3, wdata := v }) = .wrRsvd 6#3 v ∧
    decode (.host { we := true, addr := 7#3, wdata := v }) = .wrRsvd 7#3 v) ∧
  ∀ (s : State) (v : Word) (reg : BitVec 3),
    exec (.ctrlNop v) s = .next s ∧ exec (.wrRoStatus v) s = .next s ∧ exec (.wrRoSps v) s = .next s ∧
    exec (.wrRoCause v) s = .next s ∧ exec (.wrRsvd reg v) s = .next s

/-- R110 (HZ7), R105: in `FAULT` no instruction but `SRST` changes anything of the block, a write to `CAUSE` included;
only the host's list of read values may grow. -/
def Obligations.FaultIgnoresAllButReset : Prop :=
  ∀ (i : Instr) (s t : State), s.mode = .fault → (∀ v, i ≠ .srst v) → exec i s = .next t →
    { t with reads := s.reads } = s

/-! ### Command words: accept and emit -/

/-- R88, with the encodings of R91 to R95: in `RUN` between symbols the word goes to `CUR` whole, `BUSY` is set, `NIDX` and
`PHASE` are cleared, and nothing is pushed; otherwise the word is not taken and nothing changes. The marker
`taken` is the model's (log entry 2). -/
def Obligations.CommandWordIsAcceptedOrWaits : Prop :=
  ∀ (s : State) (low : BitVec 2),
    (s.mode = .run → s.busy = false →
      exec .sym0 s = .next { s with
        cur := 0b000#3, busy := true, nidx := 0#32, phase := 0#32, taken := s.taken ++ [0b000#3] } ∧
      exec .sym1 s = .next { s with
        cur := 0b001#3, busy := true, nidx := 0#32, phase := 0#32, taken := s.taken ++ [0b001#3] } ∧
      exec .sym2 s = .next { s with
        cur := 0b010#3, busy := true, nidx := 0#32, phase := 0#32, taken := s.taken ++ [0b010#3] } ∧
      exec .sym3 s = .next { s with
        cur := 0b011#3, busy := true, nidx := 0#32, phase := 0#32, taken := s.taken ++ [0b011#3] } ∧
      exec (.blank low) s = .next { s with
        cur := 1#1 ++ low, busy := true, nidx := 0#32, phase := 0#32, taken := s.taken ++ [1#1 ++ low] }) ∧
    (s.mode ≠ .run ∨ s.busy = true →
      exec .sym0 s = .next s ∧ exec .sym1 s = .next s ∧ exec .sym2 s = .next s ∧ exec .sym3 s = .next s ∧
      exec (.blank low) s = .next s)

/-- R89: the emit step, for every admissible configuration: one word is pushed; after the last sample the symbol is
finished and a pending stop takes effect, else the index and the phase advance. Without `BUSY` nothing happens. -/
def Obligations.EmitStepPushesOneSample : Prop :=
  ∀ (c : Config) (s : State),
    (s.busy = false → s.emitSample c = s) ∧
    (s.busy = true → (s.nidx.toNat : Int) = (s.sps.toNat : Int) - 1 →
      s.emitSample c = { s with
        out := s.out ++ [if s.cur.getLsbD 2 then 0x0000#16
          else tc16 (sampleValue c.amplitude s.sps.toNat s.phase.toNat (s.cur.extractLsb' 0 2).toNat)],
        nidx := 0#32, phase := 0#32, busy := false, stopPending := false,
        mode := if s.stopPending then .idle else s.mode }) ∧
    (s.busy = true → (s.nidx.toNat : Int) ≠ (s.sps.toNat : Int) - 1 →
      s.emitSample c = { s with
        out := s.out ++ [if s.cur.getLsbD 2 then 0x0000#16
          else tc16 (sampleValue c.amplitude s.sps.toNat s.phase.toNat (s.cur.extractLsb' 0 2).toNat)],
        nidx := s.nidx + 1#32,
        phase := BitVec.ofNat 32 ((s.phase.toNat + c.carrierMult) % s.sps.toNat) })

/-- R90, R91 to R95: from `RUN` between symbols with no stop pending, a command word's instruction followed by `SPS` emit
steps appends the command's run to `OUT` and leaves everything else as before but `CUR`, for every configuration. The marker
`taken` is the model's (log entry 2). -/
def Obligations.CommandPushesItsRun : Prop :=
  ∀ (c : Config) (i : Instr) (w : Cmd) (s : State), encode i = .sym w →
    s.mode = .run → s.busy = false → s.stopPending = false → 1 ≤ s.sps.toNat →
    ∃ t, exec i s = .next t ∧
      t.emitSamples c s.sps.toNat = { s with
        cur := w, nidx := 0#32, phase := 0#32,
        out := s.out ++ (List.range s.sps.toNat).map (fun n =>
          if w.getLsbD 2 then 0x0000#16
          else tc16 (qsin c.amplitude
            ((4 * ((c.carrierMult * n) % s.sps.toNat) + (w.extractLsb' 0 2).toNat * s.sps.toNat) %
              (4 * s.sps.toNat) : Nat) (4 * s.sps.toNat))),
        taken := s.taken ++ [w] }

/-- R64, R89, R106: a stop asked for inside a symbol takes effect after exactly the symbol's remaining samples, which are
all pushed. -/
def Obligations.PendingStopCompletesSymbol : Prop :=
  ∀ (c : Config) (s : State) (v : Word), s.RegistersInv c → s.busy = true →
    ∃ t, exec (.stop v) s = .next t ∧
      (t.emitSamples c (s.sps.toNat - s.nidx.toNat)).mode = .idle ∧
      (t.emitSamples c (s.sps.toNat - s.nidx.toNat)).busy = false ∧
      (t.emitSamples c (s.sps.toNat - s.nidx.toNat)).stopPending = false ∧
      (t.emitSamples c (s.sps.toNat - s.nidx.toNat)).out =
        s.out ++ (runOf c s.sps.toNat s.cur).drop s.nidx.toNat ∧
      ∀ k < s.sps.toNat - s.nidx.toNat, (t.emitSamples c k).mode = .run

/-! ### The samples -/

/-- R91 to R94: the words of the four symbols, written with the phase formula of each rule. -/
def Obligations.SymbolWordFormulas : Prop :=
  ∀ (c : Config) (N n : Nat), 1 ≤ N →
    wordOf c N 0b000#3 n = tc16 (qsin c.amplitude (4 * ((c.carrierMult * n) % N) : Nat) (4 * N)) ∧
    wordOf c N 0b001#3 n = tc16 (qsin c.amplitude (4 * ((c.carrierMult * n) % N) + N : Nat) (4 * N)) ∧
    wordOf c N 0b010#3 n = tc16 (qsin c.amplitude (4 * ((c.carrierMult * n) % N) + 2 * N : Nat) (4 * N)) ∧
    wordOf c N 0b011#3 n = tc16 (qsin c.amplitude (4 * ((c.carrierMult * n) % N) + 3 * N : Nat) (4 * N))

/-- R91 to R94: the first sample of `SYM0` and `SYM2` is 0, of `SYM1` it is `A`, of `SYM3` it is `-A`. -/
def Obligations.FirstSamplesOfSymbols : Prop :=
  ∀ (c : Config) (N : Nat), c.Admissible → 1 ≤ N →
    wordOf c N 0b000#3 0 = 0#16 ∧ wordOf c N 0b001#3 0 = tc16 c.amplitude ∧
    wordOf c N 0b010#3 0 = 0#16 ∧ wordOf c N 0b011#3 0 = tc16 (-c.amplitude)

/-- R93, R94, R80: every sample of `SYM2` is the negative of the `SYM0` sample with the same index, and of `SYM3` of the
`SYM1` sample. -/
def Obligations.OppositeSymbolsAreNegatives : Prop :=
  ∀ (c : Config) (N n : Nat), 1 ≤ N →
    wordOf c N 0b010#3 n = -wordOf c N 0b000#3 n ∧ wordOf c N 0b011#3 n = -wordOf c N 0b001#3 n

/-- R95, R69: a blank's run is `N` zero words, whichever of the four patterns it came in, whatever `A` and `M`. -/
def Obligations.BlankRunIsSilence : Prop :=
  ∀ (c : Config) (N : Nat) (low : BitVec 2), runOf c N (1#1 ++ low) = List.replicate N 0x0000#16

/-- R75, R76: `QSIN(t, D)` is the exact product `A * sin_turn((t mod D)/D)`, with the real sine, rounded to the nearest
integer, ties away from zero; for every `D = 4N` and every integer `t`. -/
def Obligations.QsinIsRoundedExactSine : Prop :=
  ∀ (A N : Nat) (t : Int), 1 ≤ A → A ≤ 32767 → 1 ≤ N →
    RoundsTo (A * Real.sin (2 * Real.pi * (((t % (4 * N : Nat) : Int) : ℝ) / ((4 * N : Nat) : ℝ))))
      (qsin A t (4 * N))

/-- R75: `QSIN` is a function of the fraction alone. -/
def Obligations.QsinDependsOnFractionOnly : Prop :=
  ∀ (A N k : Nat) (t : Int), 1 ≤ A → A ≤ 32767 → 1 ≤ N → 1 ≤ k →
    qsin A (k * t) (k * (4 * N)) = qsin A t (4 * N)

/-- R78 (a) to (d). -/
def Obligations.QsinSymmetries : Prop :=
  ∀ (A N : Nat) (t : Int), 1 ≤ N →
    qsin A (t + (4 * N : Nat)) (4 * N) = qsin A t (4 * N) ∧
    qsin A (-t) (4 * N) = -qsin A t (4 * N) ∧
    qsin A (t + (2 * N : Nat)) (4 * N) = -qsin A t (4 * N) ∧
    qsin A ((2 * N : Nat) - t) (4 * N) = qsin A t (4 * N)

/-- R78 (g) and (h): the sign on each half of the turn, and growth on the first quarter. -/
def Obligations.QsinSignAndGrowth : Prop :=
  ∀ (A N : Nat), 1 ≤ A → A ≤ 32767 → 1 ≤ N →
    (∀ t : Nat, t ≤ 2 * N → 0 ≤ qsin A t (4 * N)) ∧
    (∀ t : Nat, 2 * N ≤ t → t ≤ 4 * N → qsin A t (4 * N) ≤ 0) ∧
    (∀ t u : Nat, t ≤ u → u ≤ N → qsin A t (4 * N) ≤ qsin A u (4 * N))

/-- R78 (f): for `A = 32767` and `D <= 411760`, `QSIN` is 0 at 0 and at half a turn, and nowhere else. -/
def Obligations.QsinZerosAtHalfTurns : Prop :=
  ∀ (N : Nat) (t : Int), 1 ≤ N → 4 * N ≤ 411760 →
    (qsin 32767 t (4 * N) = 0 ↔ t % (4 * N : Nat) = 0 ∨ t % (4 * N : Nat) = (2 * N : Nat))

/-- R77: the rows of the tie table, for every amplitude, with `rnd(A/2) = (A + 1) div 2`. -/
def Obligations.QsinTieTable : Prop :=
  ∀ (A N : Nat), 1 ≤ A → A ≤ 32767 → 1 ≤ N →
    qsin A 0 (4 * N) = 0 ∧ qsin A N (4 * N) = A ∧
    qsin A (2 * N : Nat) (4 * N) = 0 ∧ qsin A (3 * N : Nat) (4 * N) = -A ∧
    qsin A N (12 * N) = ((A + 1) / 2 : Nat) ∧ qsin A (5 * N : Nat) (12 * N) = ((A + 1) / 2 : Nat) ∧
    qsin A (7 * N : Nat) (12 * N) = -((A + 1) / 2 : Nat) ∧
    qsin A (11 * N : Nat) (12 * N) = -((A + 1) / 2 : Nat)

/-- R78 (e), its second half, for this hardware: `QSIN = A` only at a quarter turn. Expected to FAIL: the rounding of R76
makes the samples next to the peak `A` too from `D = 1140` on (log entry 10). -/
def Obligations.QsinPeakOnlyAtQuarterTurn : Prop :=
  ∀ (N : Nat) (t : Int), 1 ≤ N → qsin 32767 t (4 * N) = 32767 → t % (4 * N : Nat) = (N : Nat)

/-- R78 (e), its second half, as far as it holds for this hardware: up to `D = 1136` the value is `A` only at a quarter turn
and `-A` only at three quarters (from `D = 1140` on the rounding of R76 gives `A` beside the peak too, log entry 10). -/
def Obligations.QsinPeakOnlyAtQuarterTurnUpTo1136 : Prop :=
  ∀ (N : Nat) (t : Int), 1 ≤ N → 4 * N ≤ 1136 →
    (qsin 32767 t (4 * N) = 32767 ↔ t % (4 * N : Nat) = (N : Nat)) ∧
    (qsin 32767 t (4 * N) = -32767 ↔ t % (4 * N : Nat) = (3 * N : Nat))

/-- R82, R78 (e) first half: every value lies in `[-A, A]`, and the word `0x8000` is never produced. R81, R10: a blank's
word is zero, and a symbol's word is the sample value, read as two's complement, and is its remainder by 65536, read
unsigned. -/
def Obligations.SamplesStayInRange : Prop :=
  ∀ (c : Config) (N phase : Nat) (w : Cmd), c.Admissible → 1 ≤ N →
    -(c.amplitude : Int) ≤ sampleValue c.amplitude N phase (symbolValue w) ∧
    sampleValue c.amplitude N phase (symbolValue w) ≤ c.amplitude ∧
    sampleWord c N phase w ≠ 0x8000#16 ∧
    (w.getLsbD 2 = true → sampleWord c N phase w = 0x0000#16) ∧
    (w.getLsbD 2 = false →
      (sampleWord c N phase w).toInt = sampleValue c.amplitude N phase (w.extractLsb' 0 2).toNat ∧
      ((sampleWord c N phase w).toNat : Int) =
        sampleValue c.amplitude N phase (w.extractLsb' 0 2).toNat % 65536)

/-- R80: the I/Q form and the direct form give the same integer, for every symbol, index, `N` and `M`. -/
def Obligations.IqFormEqualsDirectForm : Prop :=
  ∀ (A N M n s : Nat), 1 ≤ N → s ≤ 3 →
    sampleValueIQ A N (phaseAt M N n) s = sampleValue A N (phaseAt M N n) s

/-- R72, R85: the phase from the index within the symbol is the phase from the index within the run, so a run of equal
commands is one unbroken sine. -/
def Obligations.PhaseIsAbsolute : Prop :=
  ∀ (c : Config) (N k n : Nat) (w : Cmd),
    phaseAt c.carrierMult N (k * N + n) = phaseAt c.carrierMult N n ∧
    wordOf c N w (k * N + n) = wordOf c N w n ∧
    phaseAt c.carrierMult N N = 0 ∧
    nextPhase c.carrierMult N (phaseAt c.carrierMult N n) = phaseAt c.carrierMult N (n + 1)

/-- R86: the runs at one and at two samples per symbol (the latter with `M = 1`). -/
def Obligations.SmallestRatios : Prop :=
  ∀ (c : Config), c.Admissible →
    runOf c 1 0b000#3 = [0#16] ∧ runOf c 1 0b001#3 = [tc16 c.amplitude] ∧
    runOf c 1 0b010#3 = [0#16] ∧ runOf c 1 0b011#3 = [tc16 (-c.amplitude)] ∧
    (c.carrierMult = 1 →
      runOf c 2 0b000#3 = [0#16, 0#16] ∧ runOf c 2 0b010#3 = [0#16, 0#16] ∧
      runOf c 2 0b001#3 = [tc16 c.amplitude, tc16 (-c.amplitude)] ∧
      runOf c 2 0b011#3 = [tc16 (-c.amplitude), tc16 c.amplitude])

/-- R71, R74, R83: no integer of the datapath overflows the width the rules name. -/
def Obligations.DatapathNeverOverflows : Prop :=
  ∀ (c : Config) (s : State), c.Admissible → s.RegistersInv c → s.busy = true →
    s.phase.toNat < s.sps.toNat ∧
    s.phase.toNat + c.carrierMult < 2 ^ 33 ∧
    4 * s.phase.toNat + symbolValue s.cur * s.sps.toNat < 2 * (4 * s.sps.toNat) ∧
    4 * s.phase.toNat + symbolValue s.cur * s.sps.toNat < 2 ^ 35 ∧
    (s.nidx.toNat + 1 ≠ s.sps.toNat → (s.nidx + 1#32).toNat = s.nidx.toNat + 1)

/-! ### Invariants -/

/-- R107, R13: reset leaves every register at the value of the table, and the invariants hold there. -/
def Obligations.ResetState : Prop :=
  State.reset.sampleRate = 0x00000000#32 ∧ State.reset.symbolRate = 0x00000000#32 ∧
  State.reset.mode = .idle ∧ State.reset.busy = false ∧ State.reset.stopPending = false ∧
  State.reset.sps = 0x00000000#32 ∧ State.reset.cause.code = 0x0#4 ∧ State.reset.cur = 0b000#3 ∧
  State.reset.nidx = 0x00000000#32 ∧ State.reset.phase = 0x00000000#32 ∧ State.reset.out = [] ∧
  State.reset.symReady = false ∧ State.reset.pcmValid = false ∧ State.reset.faultPin = false

/-- R36, R97, R82: every invariant holds right after reset. -/
def Obligations.ResetMeetsInvariants : Prop :=
  State.reset.Inv

/-- R36 (a) to (g): every step keeps the relations between the registers. -/
def Obligations.StepKeepsRegisterRelations : Prop :=
  ∀ s t : State, s.RegistersInv Config.hardware → step s = .next t → t.RegistersInv Config.hardware

/-- R97, R96: every step keeps the account of `OUT`. -/
def Obligations.StepKeepsOutputAccount : Prop :=
  ∀ s t : State, s.RegistersInv Config.hardware → s.OutputInv Config.hardware → step s = .next t →
    t.OutputInv Config.hardware

/-- R82: no step ever pushes the word `0x8000`. -/
def Obligations.StepKeepsSampleRange : Prop :=
  ∀ s t : State, s.NoFullNegative → step s = .next t → t.NoFullNegative

/-- R97, R36 (h): since the run began, `OUT` is a prefix of `modulate` of the words taken, and its length is `SPS` for
each command completed plus `NIDX`. -/
def Obligations.OutputIsPrefixOfModulate : Prop :=
  ∀ (c : Config) (s : State), s.RegistersInv c → s.OutputInv c →
    s.out.drop s.runBase <+: modulate c s.sps.toNat s.taken ∧
    (s.out.drop s.runBase).length =
      s.sps.toNat * (s.taken.length - (if s.busy then 1 else 0)) + s.nidx.toNat

/-- R49: what a run has pushed is a function of `SPS`, the parameters and the words taken (with how far the current one
has come), and of nothing else: not of timing, the sink's pauses, reads or earlier runs. -/
def Obligations.OutputDependsOnWordsTakenOnly : Prop :=
  ∀ (c : Config) (s t : State), s.RegistersInv c → s.OutputInv c → t.RegistersInv c → t.OutputInv c →
    s.sps = t.sps → s.taken = t.taken → s.busy = t.busy → s.nidx = t.nidx →
    s.out.drop s.runBase = t.out.drop t.runBase

/-- R96, R112, R113: from `RUN` between symbols, when the source has the words `ws` next, offers each and the sink is
ready `SPS` times after each, the run pushes exactly `modulate(SPS, ws)` in that many steps and is between symbols. -/
def Obligations.StreamPushesModulate : Prop :=
  ∀ (s : State) (ws left : List Cmd) (more : List Event),
    s.RegistersInv Config.hardware → s.mode = .run → s.busy = false → s.source = ws ++ left →
    s.agenda = streamEvents s.sps.toNat ws.length ++ more →
    runSteps (ws.length * (s.sps.toNat + 1)) s = .next { s with
      cur := ws.getLastD s.cur, source := left, agenda := more,
      out := s.out ++ modulate Config.hardware s.sps.toNat ws, taken := s.taken ++ ws }

/-- R113, R15: the end of a run. A legal `START` with the words `ws` next, each offered and the sink ready `SPS` times
after each, ends with `OUT`, counted from the run's beginning, equal to `modulate(SPS, ws)`, in `RUN` (and in `IDLE`
after a `STOP`), with `NIDX`, `PHASE` and `CAUSE` 0 and `CUR` the last word, or its reset value if there was none (log
entry 23), whatever runs came before. A run whose `START` raised has ended at once with `OUT` so counted empty, in
`FAULT` (log entry 8). The schedule is the model's way to say a fair environment (log entry 13). -/
def Obligations.RunEndsWithModulateOfItsProgram : Prop :=
  (∀ (s : State) (op : HostOp) (v : Word) (N : Nat) (ws left : List Cmd) (more : List Event),
    decodeHost op = .start v → s.mode = .idle → s.symbolRate.toNat ≠ 0 → s.sampleRate.toNat ≠ 0 →
    s.sampleRate.toNat % s.symbolRate.toNat = 0 → N = s.sampleRate.toNat / s.symbolRate.toNat →
    s.source = ws ++ left → s.agenda = .host op :: (streamEvents N ws.length ++ more) →
    ∃ t, runSteps (1 + ws.length * (N + 1)) s = .next t ∧
      t.out = s.out ++ modulate Config.hardware N ws ∧ t.out.drop t.runBase = modulate Config.hardware N ws ∧
      (t.out.drop t.runBase).length = ws.length * N ∧
      t.mode = .run ∧ t.busy = false ∧ t.sps.toNat = N ∧ t.nidx = 0#32 ∧ t.phase = 0#32 ∧ t.cause = .none ∧
      t.cur = ws.getLastD 0b000#3 ∧ t.taken = ws ∧ t.source = left ∧ t.agenda = more ∧
      ∀ stop w rest, more = .host stop :: rest → decodeHost stop = .stop w →
        step t = .next { t with mode := .idle, agenda := rest }) ∧
  (∀ (s : State) (v : Word), s.mode = .idle →
    s.symbolRate.toNat = 0 ∨ s.sampleRate.toNat = 0 ∨ s.sampleRate.toNat % s.symbolRate.toNat ≠ 0 →
    ∃ t, exec (.start v) s = .next t ∧ t.mode = .fault ∧ t.out = s.out ∧ t.out.drop t.runBase = [] ∧ t.taken = [])

/-! ### Rules of the whole machine -/

/-- R106: the complete table of mode transitions. -/
def Obligations.ModeChangesOnlyByTable : Prop :=
  ∀ (s t : State) (e : Event) (rest : List Event), s.RegistersInv Config.hardware →
    s.agenda = e :: rest → step s = .next t → t.mode ≠ s.mode →
    (e.isReset = true ∧ t.mode = .idle) ∨
    (s.mode = .idle ∧ e.isStart = true ∧ s.configurationCheck = .none ∧ t.mode = .run) ∨
    (s.mode = .idle ∧ e.isStart = true ∧ s.configurationCheck ≠ .none ∧ t.mode = .fault) ∨
    (s.mode = .run ∧ e.isStop = true ∧ s.busy = false ∧ t.mode = .idle) ∨
    (s.mode = .run ∧ e = .sinkReady ∧ s.busy = true ∧ s.nidx.toNat + 1 = s.sps.toNat ∧
      s.stopPending = true ∧ t.mode = .idle)

/-- R105, R104, R101: from `FAULT` a step that is no reset leaves every register of the block and `OUT` as they were. -/
def Obligations.FaultIsSticky : Prop :=
  ∀ (s t : State) (e : Event) (rest : List Event), s.RegistersInv Config.hardware →
    s.agenda = e :: rest → s.mode = .fault → e.isReset = false → step s = .next t →
    { t with source := s.source, agenda := s.agenda, reads := s.reads } = s

/-- R104, R105 (decision D30): after a failed `START` no sample appears however long the run of steps, short of a
reset. -/
def Obligations.FailedStartPushesNothing : Prop :=
  ∀ (k : Nat) (s t : State), s.RegistersInv Config.hardware → s.mode = .fault →
    (∀ e ∈ s.agenda, e.isReset = false) → runSteps k s = .next t → t.out = s.out ∧ t.mode = .fault

/-- R34, R89: `OUT` only grows, by one word at a time, and only in an emit step; the word is the one `pcm_data` offered. -/
def Obligations.OutputOnlyGrowsByEmit : Prop :=
  ∀ s t : State, step s = .next t →
    t.out = s.out ∨
    (∃ rest x, s.agenda = .sinkReady :: rest ∧ s.pcmData Config.hardware = some x ∧ t.out = s.out ++ [x])

/-- R26, R27, R30, R15: outside `IDLE` no step but a reset changes a rate, and no step but a reset or a `START` in `IDLE`
changes `SPS`. -/
def Obligations.ConfigurationOfRunIsFixed : Prop :=
  ∀ (s t : State) (e : Event) (rest : List Event), s.agenda = e :: rest → e.isReset = false →
    step s = .next t →
    (s.mode ≠ .idle → t.sampleRate = s.sampleRate ∧ t.symbolRate = s.symbolRate ∧ t.sps = s.sps) ∧
    (e.isStart = false → t.sps = s.sps)

/-- R23, R22, R64: a pending stop is cleared only by the end of the symbol or a reset, and while it is pending no word is
taken. -/
def Obligations.PendingStopCannotBeCancelled : Prop :=
  ∀ (s t : State) (e : Event) (rest : List Event), s.RegistersInv Config.hardware →
    s.stopPending = true → s.agenda = e :: rest → e.isReset = false → step s = .next t →
    (t.stopPending = true ∨
      (e = .sinkReady ∧ s.nidx.toNat + 1 = s.sps.toNat ∧ t.mode = .idle ∧ t.busy = false)) ∧
    t.taken = s.taken ∧ t.cur = s.cur

/-- R29: the read values of `STATUS` under the invariants. -/
def Obligations.StatusReadValues : Prop :=
  ∀ s : State, s.RegistersInv Config.hardware →
    (s.mode = .idle → s.statusWord = 0x0#32) ∧
    (s.mode = .fault → s.statusWord = 0x2#32) ∧
    (s.mode = .run → s.busy = false → s.statusWord = 0x1#32) ∧
    (s.mode = .run → s.busy = true → s.stopPending = false → s.statusWord = 0x5#32) ∧
    (s.mode = .run → s.busy = true → s.stopPending = true → s.statusWord = 0xD#32)

/-- R38, R102: the output signals. -/
def Obligations.OutputSignals : Prop :=
  ∀ s : State,
    (s.symReady = true ↔ s.mode = .run ∧ s.busy = false) ∧
    (s.pcmValid = true ↔ s.busy = true) ∧
    (s.faultPin = true ↔ s.mode = .fault) ∧
    (s.busy = true → s.pcmData Config.hardware =
      some (sampleWord Config.hardware s.sps.toNat s.phase.toNat s.cur)) ∧
    (s.busy = false → s.pcmData Config.hardware = none)

/-- R48, R103, R107: events on one edge. `rst` leaves room for nothing else; on every other edge the host operation
comes first, then the emit, then the accept. A stop on the edge of an accept wins and the word is not taken; on the edge
of an emit and an accept it is seen by both: the symbol's last sample is pushed, the block is idle and the word is not
taken. A soft reset on such an edge wins over both: nothing is pushed and nothing is taken. The emit of a symbol's last
sample and the accept of the next word may share an edge. That an edge is a list of events is the model's form (log
entry 21). -/
def Obligations.EdgeOrderHostEmitAccept : Prop :=
  (∀ g : Edge, g.rst = true → edgeEvents g = [.reset]) ∧
  (∀ g : Edge, g.rst = false → edgeEvents g =
    (match g.cfg with
      | some op => [.host op]
      | none => []) ++
    ((if g.pcmReady = true then [.sinkReady] else []) ++ (if g.symValid = true then [.sourceOffers] else []))) ∧
  (∀ (s : State) (op : HostOp) (rest : List Event) (v : Word), decodeHost op = .stop v →
    s.mode = .run → s.busy = false →
    s.agenda = edgeEvents { rst := false, cfg := some op, pcmReady := false, symValid := true } ++ rest →
    runSteps 2 s = .next { s with mode := .idle, agenda := rest }) ∧
  (∀ (s : State) (op : HostOp) (rest : List Event) (v : Word), decodeHost op = .stop v →
    s.mode = .run → s.busy = true → s.nidx.toNat + 1 = s.sps.toNat →
    s.agenda = edgeEvents { rst := false, cfg := some op, pcmReady := true, symValid := true } ++ rest →
    runSteps 3 s = .next { s with
      out := s.out ++ [s.nextSample Config.hardware], mode := .idle, busy := false, stopPending := false,
      nidx := 0#32, phase := 0#32, agenda := rest }) ∧
  (∀ (s : State) (op : HostOp) (rest : List Event) (v : Word), decodeHost op = .srst v →
    s.agenda = edgeEvents { rst := false, cfg := some op, pcmReady := true, symValid := true } ++ rest →
    runSteps 3 s = .next (State.resetBlock { s with agenda := rest })) ∧
  (∀ (s : State) (w : Cmd) (ws : List Cmd) (rest : List Event),
    s.mode = .run → s.busy = true → s.stopPending = false → s.nidx.toNat + 1 = s.sps.toNat →
    s.source = w :: ws →
    s.agenda = edgeEvents { rst := false, cfg := none, pcmReady := true, symValid := true } ++ rest →
    runSteps 2 s = .next { s with
      out := s.out ++ [s.nextSample Config.hardware], cur := w, nidx := 0#32, phase := 0#32,
      source := ws, agenda := rest, taken := s.taken ++ [w] })

/-- R40, R11, R44: `CFG_BASE` is a multiple of 32, and on the bus an aligned four-byte access to `CFG_BASE + 4i` is the
host operation on register `i`, and every other access is refused, by name. Which name comes first is the model's choice
(log entry 7). -/
def Obligations.BusAccessReachesRegisterOrIsRefused : Prop :=
  Config.cfgBase % 32 = 0 ∧
  (∀ (i : BitVec 3) (v : Word),
    busToHost { write := true, addr := Config.cfgBase + 4 * i.toNat, size := 4, data := v } =
      .ok (hostWrite i v) ∧
    busToHost { write := false, addr := Config.cfgBase + 4 * i.toNat, size := 4, data := v } =
      .ok (hostRead i v)) ∧
  (∀ (s : State) (a : BusAccess) (rest : List Event), s.agenda = .bus a :: rest →
    (a.size ≠ 4 ∨ a.addr % 4 ≠ 0 ∨ a.addr < Config.cfgBase ∨ Config.cfgBase + 31 < a.addr) →
    step s = .refused (if a.size ≠ 4 then .busAccessSize a.size
      else if a.addr % 4 ≠ 0 then .busAccessMisaligned a.addr else .busAccessOutside a.addr))

/-- R109, R63: from any state, `rst`, the two rate writes in either order and `START` put the block in `RUN` with
`SPS = sr div yr` when the rates are legal, and in `FAULT` when they are not; nothing is pushed on the way. -/
def Obligations.StartUpSequence : Prop :=
  ∀ (s : State) (sr yr : Word) (rest : List Event),
    (s.agenda = [.reset, .host (hostWrite 0#3 sr), .host (hostWrite 1#3 yr), .host startOp] ++ rest ∨
     s.agenda = [.reset, .host (hostWrite 1#3 yr), .host (hostWrite 0#3 sr), .host startOp] ++ rest) →
    ∃ t, runSteps 4 s = .next t ∧ t.agenda = rest ∧ t.out = s.out ∧ t.source = s.source ∧
      t.sampleRate = sr ∧ t.symbolRate = yr ∧
      (yr.toNat ≠ 0 ∧ sr.toNat ≠ 0 ∧ sr.toNat % yr.toNat = 0 →
        t.mode = .run ∧ t.sps.toNat = sr.toNat / yr.toNat ∧ t.symReady = true) ∧
      (¬(yr.toNat ≠ 0 ∧ sr.toNat ≠ 0 ∧ sr.toNat % yr.toNat = 0) →
        t.mode = .fault ∧ t.sps = 0#32 ∧ t.cause ≠ .none)
end

