-- ==== Sys2Proof/Laws/PerInstr.lean ====
section
/-! SUPPORT. Statements made per instruction. `EncodesTableRow`: the word of a well-formed instruction matches exactly one
row of the opcode table (30_encoding.md R54, R55), its own. -/

namespace Sys2Proof.Laws.EncodesTableRow

/-- The encoding of a well-formed instruction matches one row of the opcode table, the row of its mnemonic. -/
def Statement (i : Instr) : Prop :=
  i.WellFormed → matchingRows (encode i).format (encode i).tableBits = [i.mnemonic]

/-- The selector bits of a write operand, as a number of three bits. -/
theorem low_bits (v : Word) : ∃ d : BitVec 3, v.extractLsb' 0 3 = d ∧
    v.getLsbD 0 = d.getLsbD 0 ∧ v.getLsbD 1 = d.getLsbD 1 ∧ v.getLsbD 2 = d.getLsbD 2 := by
  refine ⟨_, rfl, ?_, ?_, ?_⟩ <;> simp

/-- The table bits of a host write, with the write data's low three bits named. -/
theorem tableBits_hostWrite (reg : BitVec 3) (v : Word) (d : BitVec 3) (h : v.extractLsb' 0 3 = d) :
    (PortWord.host (hostWrite reg v)).tableBits = (1#1 ++ reg ++ d).toNat := by
  simp only [PortWord.tableBits, HostOp.selector, hostWrite, h]
  rfl

theorem sym0 : Statement .sym0 := fun _ => by decide

theorem sym1 : Statement .sym1 := fun _ => by decide

theorem sym2 : Statement .sym2 := fun _ => by decide

theorem sym3 : Statement .sym3 := fun _ => by decide

theorem blank (low : BitVec 2) : Statement (.blank low) := fun _ => by
  revert low
  decide

theorem rd (reg : BitVec 3) (data : Word) : Statement (.rd reg data) := fun w => by
  clear w
  obtain ⟨d, e, -⟩ := low_bits data
  have h : (PortWord.host (hostRead reg data)).tableBits = (0#1 ++ reg ++ d).toNat := by
    simp only [PortWord.tableBits, HostOp.selector, hostRead, e]
    rfl
  simp only [encode, h, PortWord.format, Instr.mnemonic]
  clear h e
  revert reg d
  decide +kernel

theorem wrSampleRate (v : Word) : Statement (.wrSampleRate v) := fun _ => by
  obtain ⟨d, e, -⟩ := low_bits v
  simp only [encode, tableBits_hostWrite _ v d e, PortWord.format, Instr.mnemonic]
  clear e
  revert d
  decide

theorem wrSymbolRate (v : Word) : Statement (.wrSymbolRate v) := fun _ => by
  obtain ⟨d, e, -⟩ := low_bits v
  simp only [encode, tableBits_hostWrite _ v d e, PortWord.format, Instr.mnemonic]
  clear e
  revert d
  decide

theorem srst (v : Word) : Statement (.srst v) := fun h => by
  obtain ⟨d, e, -, -, h2⟩ := low_bits v
  simp only [Instr.WellFormed, Instr.wellFormed, h2] at h
  simp only [encode, tableBits_hostWrite _ v d e, PortWord.format, Instr.mnemonic]
  clear e h2
  revert d
  decide

theorem stop (v : Word) : Statement (.stop v) := fun h => by
  obtain ⟨d, e, -, h1, h2⟩ := low_bits v
  simp only [Instr.WellFormed, Instr.wellFormed, h1, h2] at h
  simp only [encode, tableBits_hostWrite _ v d e, PortWord.format, Instr.mnemonic]
  clear e h1 h2
  revert d
  decide

theorem start (v : Word) : Statement (.start v) := fun h => by
  obtain ⟨d, e, h0, h1, h2⟩ := low_bits v
  simp only [Instr.WellFormed, Instr.wellFormed, h0, h1, h2] at h
  simp only [encode, tableBits_hostWrite _ v d e, PortWord.format, Instr.mnemonic]
  clear e h0 h1 h2
  revert d
  decide

theorem ctrlNop (v : Word) : Statement (.ctrlNop v) := fun h => by
  obtain ⟨d, e, h0, h1, h2⟩ := low_bits v
  simp only [Instr.WellFormed, Instr.wellFormed, h0, h1, h2] at h
  simp only [encode, tableBits_hostWrite _ v d e, PortWord.format, Instr.mnemonic]
  clear e h0 h1 h2
  revert d
  decide

theorem wrRoStatus (v : Word) : Statement (.wrRoStatus v) := fun _ => by
  obtain ⟨d, e, -⟩ := low_bits v
  simp only [encode, tableBits_hostWrite _ v d e, PortWord.format, Instr.mnemonic]
  clear e
  revert d
  decide

theorem wrRoSps (v : Word) : Statement (.wrRoSps v) := fun _ => by
  obtain ⟨d, e, -⟩ := low_bits v
  simp only [encode, tableBits_hostWrite _ v d e, PortWord.format, Instr.mnemonic]
  clear e
  revert d
  decide

theorem wrRoCause (v : Word) : Statement (.wrRoCause v) := fun _ => by
  obtain ⟨d, e, -⟩ := low_bits v
  simp only [encode, tableBits_hostWrite _ v d e, PortWord.format, Instr.mnemonic]
  clear e
  revert d
  decide

theorem wrRsvd (reg : BitVec 3) (v : Word) : Statement (.wrRsvd reg v) := fun h => by
  obtain ⟨d, e, -⟩ := low_bits v
  simp only [Instr.WellFormed, Instr.wellFormed] at h
  simp only [encode, tableBits_hostWrite _ v d e, PortWord.format, Instr.mnemonic]
  clear e
  revert reg d
  decide +kernel

end Sys2Proof.Laws.EncodesTableRow
end

