-- ==== Sys2Proof/Laws/QuantisedSine.lean ====
section
/-! SUPPORT. What the exact quantised sine computes (41_synthesis_datapath.md R75, R76): the winding of the powers of
`p + i * sqrt(q^2 - p^2)`, the count of half turns, the bisection, and the quarter-wave value as a comparison with the real
sine. -/

namespace Sys2Proof.Machine

open Real

/-- `w` is the power with exponent `h` of `q * (cos f + i * sin f)`, with its half turns counted. -/
structure Winds (p q : ℤ) (f : ℝ) (h : ℕ) (w : Winding) : Prop where
  cosine : (w.x : ℝ) = (q : ℝ) ^ h * cos (h * f)
  sine : (w.y : ℝ) * (q * sin f) = (q : ℝ) ^ h * sin (h * f)
  lower : w.halfTurns * π ≤ h * f
  upper : (h : ℝ) * f < (w.halfTurns + 1) * π

/-- The angle `f` of `p/q`: strictly inside a half turn. -/
structure AngleOf (p q : ℤ) (f : ℝ) : Prop where
  scale : 0 < q
  pos : 0 < f
  lt : f < π
  cosine : (q : ℝ) * cos f = p

theorem agreesWithHalfTurn_iff (m : ℕ) (v : ℤ) :
    agreesWithHalfTurn m v = true ↔ 0 < (-1 : ℝ) ^ m * (v : ℝ) := by
  unfold agreesWithHalfTurn
  rcases Nat.even_or_odd m with hm | hm
  · simp [Nat.even_iff.mp hm, hm.neg_one_pow]
  · simp [Nat.odd_iff.mp hm, hm.neg_one_pow]

theorem sin_remainder (t : ℝ) (m : ℕ) : (-1 : ℝ) ^ m * sin t = sin (t - m * π) := by
  rw [sin_sub_nat_mul_pi]

theorem cos_remainder (t : ℝ) (m : ℕ) : (-1 : ℝ) ^ m * cos t = cos (t - m * π) := by
  rw [cos_sub_nat_mul_pi]

variable {p q : ℤ} {f : ℝ} {h : ℕ} {w : Winding}

theorem AngleOf.sin_pos (a : AngleOf p q f) : 0 < sin f :=
  sin_pos_of_pos_of_lt_pi a.pos a.lt

theorem AngleOf.scale_real (a : AngleOf p q f) : (0 : ℝ) < q := by
  exact_mod_cast a.scale

/-- `q^2 - p^2` is the square of `q * sin f`. -/
theorem AngleOf.discriminant (a : AngleOf p q f) :
    ((q * q - p * p : ℤ) : ℝ) = (q * sin f) * (q * sin f) := by
  push_cast
  rw [← a.cosine]
  linear_combination (q : ℝ) ^ 2 * (sin_sq_add_cos_sq f).symm

theorem Winds.double (a : AngleOf p q f) (c : Winds p q f h w) :
    Winds p q f (2 * h) (windingDouble (q * q - p * p) w) := by
  have hq := pow_pos a.scale_real h
  have hx : ((windingDouble (q * q - p * p) w).x : ℝ) = (q : ℝ) ^ (2 * h) * cos ((2 * h : ℕ) * f) := by
    have e : ((windingDouble (q * q - p * p) w).x : ℝ)
        = w.x * w.x - (w.y * (q * sin f)) * (w.y * (q * sin f)) := by
      simp only [windingDouble]
      rw [Int.cast_sub, Int.cast_mul, Int.cast_mul, Int.cast_mul, a.discriminant]
      ring
    rw [e, c.cosine, c.sine]
    push_cast
    rw [mul_assoc 2, cos_two_mul, pow_mul']
    linear_combination ((q : ℝ) ^ h) ^ 2 * (-(sin_sq_add_cos_sq (h * f)))
  have hy : ((windingDouble (q * q - p * p) w).y : ℝ) * (q * sin f)
      = (q : ℝ) ^ (2 * h) * sin ((2 * h : ℕ) * f) := by
    have e : ((windingDouble (q * q - p * p) w).y : ℝ) * (q * sin f)
        = 2 * (w.x * (w.y * (q * sin f))) := by
      simp only [windingDouble]
      push_cast
      ring
    rw [e, c.cosine, c.sine]
    push_cast
    rw [mul_assoc 2, sin_two_mul, pow_mul']
    ring
  have l := c.lower
  have u := c.upper
  have hm : agreesWithHalfTurn w.halfTurns w.x = true ↔ (h : ℝ) * f - w.halfTurns * π < π / 2 := by
    rw [agreesWithHalfTurn_iff, c.cosine, mul_left_comm, cos_remainder, mul_pos_iff_of_pos_left hq]
    constructor
    · intro hc
      by_contra hge
      exact absurd hc (not_lt.mpr (cos_nonpos_of_pi_div_two_le_of_le (not_lt.mp hge)
        (by linarith [pi_pos])))
    · intro hlt
      exact cos_pos_of_mem_Ioo ⟨by linarith [pi_pos], hlt⟩
  refine ⟨hx, hy, ?_, ?_⟩
  · simp only [windingDouble]
    split
    · push_cast; linarith
    · next hn =>
      have := not_lt.mp (mt hm.mpr hn)
      push_cast; linarith
  · simp only [windingDouble]
    split
    · next hp =>
      have := hm.mp hp
      push_cast; linarith
    · push_cast; linarith

theorem Winds.add (a : AngleOf p q f) (c : Winds p q f h w) :
    Winds p q f (h + 1) (windingAdd p (q * q - p * p) w) := by
  have hq := pow_pos a.scale_real (h + 1)
  have hqs : (q : ℝ) * sin f > 0 := mul_pos a.scale_real a.sin_pos
  have hx : ((windingAdd p (q * q - p * p) w).x : ℝ) = (q : ℝ) ^ (h + 1) * cos ((h + 1 : ℕ) * f) := by
    have e : ((windingAdd p (q * q - p * p) w).x : ℝ)
        = p * w.x - (q * sin f) * (w.y * (q * sin f)) := by
      simp only [windingAdd]
      rw [Int.cast_sub, Int.cast_mul, Int.cast_mul, a.discriminant]
      ring
    rw [e, c.cosine, c.sine, ← a.cosine]
    push_cast
    rw [add_mul, one_mul, cos_add]
    ring
  have hy : ((windingAdd p (q * q - p * p) w).y : ℝ) * (q * sin f)
      = (q : ℝ) ^ (h + 1) * sin ((h + 1 : ℕ) * f) := by
    have e : ((windingAdd p (q * q - p * p) w).y : ℝ) * (q * sin f)
        = p * (w.y * (q * sin f)) + w.x * (q * sin f) := by
      simp only [windingAdd]
      push_cast
      ring
    rw [e, c.cosine, c.sine, ← a.cosine]
    push_cast
    rw [add_mul, one_mul, sin_add]
    ring
  have l := c.lower
  have u := c.upper
  have fp := a.pos
  have fl := a.lt
  have hm : agreesWithHalfTurn w.halfTurns (p * w.y + w.x) = true ↔
      ((h + 1 : ℕ) : ℝ) * f - w.halfTurns * π < π := by
    have e : agreesWithHalfTurn w.halfTurns (p * w.y + w.x) = true ↔
        0 < sin (((h + 1 : ℕ) : ℝ) * f - w.halfTurns * π) := by
      rw [agreesWithHalfTurn_iff, ← sin_remainder, ← mul_pos_iff_of_pos_right hqs, mul_assoc]
      have : ((p * w.y + w.x : ℤ) : ℝ) * (q * sin f) = (q : ℝ) ^ (h + 1) * sin ((h + 1 : ℕ) * f) := hy
      rw [this, mul_left_comm, mul_pos_iff_of_pos_left hq]
    rw [e]
    push_cast
    constructor
    · intro hs
      by_contra hge
      have hge := not_lt.mp hge
      have : sin ((h + 1) * f - w.halfTurns * π) = - sin ((h + 1) * f - w.halfTurns * π - π) := by
        rw [sin_sub_pi, neg_neg]
      rw [this] at hs
      have := sin_nonneg_of_nonneg_of_le_pi (x := (h + 1) * f - w.halfTurns * π - π)
        (by linarith) (by linarith)
      linarith
    · intro hlt
      exact sin_pos_of_pos_of_lt_pi (by linarith) hlt
  refine ⟨hx, hy, ?_, ?_⟩
  · simp only [windingAdd]
    split
    · push_cast; linarith
    · next hn =>
      have := not_lt.mp (mt hm.mpr hn)
      push_cast at this ⊢; linarith
  · simp only [windingAdd]
    split
    · next hp =>
      have := hm.mp hp
      push_cast at this ⊢; linarith
    · push_cast; linarith

theorem Winds.power (a : AngleOf p q f) (n : ℕ) :
    ∀ (i : ℕ) (w : Winding), Winds p q f (n / 2 ^ i) w →
      Winds p q f n (windingPower p (q * q - p * p) n i w)
  | 0, w, c => by simpa [windingPower] using c
  | i + 1, w, c => by
    have hd : n / 2 ^ i = 2 * (n / 2 ^ (i + 1)) + (n / 2 ^ i) % 2 := by
      rw [pow_succ, ← Nat.div_div_eq_div_mul]; omega
    have ht : n.testBit i = decide ((n / 2 ^ i) % 2 = 1) := Nat.testBit_eq_decide_div_mod_eq
    simp only [windingPower, ht]
    by_cases hb : (n / 2 ^ i) % 2 = 1
    · rw [if_pos (by simpa using hb)]
      refine Winds.power a n i _ ?_
      rw [hd, hb]
      exact (c.double a).add a
    · rw [if_neg (by simpa using hb)]
      refine Winds.power a n i _ ?_
      rw [hd, show (n / 2 ^ i) % 2 = 0 by omega, add_zero]
      exact c.double a

/-- The count of half turns is exact: `halfTurnsIn p q n` half turns fit in `n * f`, and one more does not. -/
theorem halfTurnsIn_spec (a : AngleOf p q f) (n : ℕ) :
    (halfTurnsIn p q n : ℝ) * π ≤ n * f ∧ (n : ℝ) * f < (halfTurnsIn p q n + 1) * π := by
  have c0 : Winds p q f (n / 2 ^ (Nat.log2 n + 1)) { x := 1, y := 0, halfTurns := 0 } := by
    rw [Nat.div_eq_of_lt Nat.lt_log2_self]
    constructor <;> simp [pi_pos]
  have c := Winds.power a n _ _ c0
  exact ⟨c.lower, c.upper⟩

theorem le_halfTurnsIn_iff (a : AngleOf p q f) (n v : ℕ) :
    v ≤ halfTurnsIn p q n ↔ (v : ℝ) * π ≤ n * f := by
  have ⟨l, u⟩ := halfTurnsIn_spec a n
  constructor
  · intro hv
    have : (v : ℝ) ≤ halfTurnsIn p q n := by exact_mod_cast hv
    exact le_trans (mul_le_mul_of_nonneg_right this pi_pos.le) l
  · intro hv
    have : (v : ℝ) < halfTurnsIn p q n + 1 := lt_of_mul_lt_mul_right (lt_of_le_of_lt hv u) pi_pos.le
    have : v < halfTurnsIn p q n + 1 := by exact_mod_cast this
    omega

/-! ### The comparison with the sine -/

/-- `sineReaches` compares with the real sine: for `1 <= k <= A` and `0 <= u <= N`. -/
theorem sineReaches_iff {A N u k : ℕ} (hk : 1 ≤ k) (hkA : k ≤ A) (hN : 1 ≤ N) (hu : u ≤ N) :
    sineReaches A N u k = true ↔ ((2 * k - 1 : ℝ)) / (2 * A) ≤ sin (2 * π * (u / (4 * N))) := by
  have hA : (0 : ℝ) < 2 * A := by
    have : (1 : ℝ) ≤ A := by exact_mod_cast le_trans hk hkA
    linarith
  have hk1 : (1 : ℝ) ≤ k := by exact_mod_cast hk
  have hkA1 : (k : ℝ) ≤ A := by exact_mod_cast hkA
  have hN0 : (0 : ℝ) < N := by exact_mod_cast hN
  have hu1 : (u : ℝ) ≤ N := by exact_mod_cast hu
  have hu0 : (0 : ℝ) ≤ u := Nat.cast_nonneg u
  set r : ℝ := (2 * k - 1) / (2 * A) with hr
  have r0 : 0 < r := div_pos (by linarith) hA
  have r1 : r < 1 := (div_lt_one hA).mpr (by linarith)
  have ang : AngleOf (2 * (k : ℤ) - 1) (2 * (A : ℤ)) (arccos r) := by
    refine ⟨by omega, arccos_pos.mpr r1, ?_, ?_⟩
    · have := arccos_lt_pi_div_two.mpr r0
      linarith [pi_pos]
    · rw [cos_arccos (by linarith) r1.le, hr]
      push_cast
      exact mul_div_cancel₀ _ hA.ne'
  unfold sineReaches
  rw [decide_eq_true_iff, le_halfTurnsIn_iff ang, Nat.cast_sub hu]
  set x : ℝ := 2 * π * (u / (4 * N)) with hx
  have hxN : x = π / 2 - (N - u) * π / (2 * N) := by rw [hx]; field_simp; ring
  have hle : (N - u : ℝ) * π / (2 * N) ≤ π / 2 := by
    rw [div_le_div_iff₀ (by linarith) (by norm_num)]
    nlinarith [pi_pos]
  have h0 : 0 ≤ (N - u : ℝ) * π / (2 * N) :=
    div_nonneg (mul_nonneg (by linarith) pi_pos.le) (by linarith)
  rw [hxN, sin_pi_div_two_sub]
  have e1 : (N - u : ℝ) * π ≤ ((2 * N : ℕ) : ℝ) * arccos r ↔ (N - u : ℝ) * π / (2 * N) ≤ arccos r := by
    rw [div_le_iff₀ (by linarith)]
    push_cast
    rw [mul_comm (2 * (N : ℝ))]
  rw [e1]
  constructor
  · intro hy
    calc r = cos (arccos r) := (cos_arccos (by linarith) r1.le).symm
      _ ≤ _ := cos_le_cos_of_nonneg_of_le_pi h0 (arccos_le_pi r) hy
  · intro hy
    calc (N - u : ℝ) * π / (2 * N) = arccos (cos ((N - u : ℝ) * π / (2 * N))) :=
          (arccos_cos h0 (by linarith [pi_pos])).symm
      _ ≤ arccos r := arccos_le_arccos hy

/-! ### The bisection -/

/-- Bisection finds the last good value, when `good` falls once between `lo` and `hi`. -/
theorem largestGood_spec {good : ℕ → Bool} :
    ∀ (fuel lo hi : ℕ), (∀ i j, lo < i → i ≤ j → j < hi → good j = true → good i = true) →
      lo < hi → hi - lo ≤ 2 ^ fuel →
      lo ≤ largestGood good fuel lo hi ∧ largestGood good fuel lo hi < hi ∧
      (largestGood good fuel lo hi ≠ lo → good (largestGood good fuel lo hi) = true) ∧
      ∀ j, largestGood good fuel lo hi < j → j < hi → good j = false
  | 0, lo, hi, _, h, hf => by
    simp only [largestGood]
    exact ⟨le_refl _, h, fun hne => absurd rfl hne, fun j h1 h2 => by simp at hf; omega⟩
  | fuel + 1, lo, hi, mono, h, hf => by
    simp only [largestGood]
    rw [pow_succ] at hf
    split
    · split
      · next hg =>
        have ⟨a, b, c, d⟩ := largestGood_spec fuel ((lo + hi) / 2) hi
          (fun i j h1 h2 h3 => mono i j (by omega) h2 h3) (by omega) (by omega)
        refine ⟨by omega, b, fun _ => ?_, d⟩
        by_cases e : largestGood good fuel ((lo + hi) / 2) hi = (lo + hi) / 2
        · rw [e]; exact hg
        · exact c e
      · next hg =>
        have ⟨a, b, c, d⟩ := largestGood_spec fuel lo ((lo + hi) / 2)
          (fun i j h1 h2 h3 => mono i j h1 h2 (by omega)) (by omega) (by omega)
        refine ⟨a, by omega, c, fun j h1 h2 => ?_⟩
        by_cases hj : j < (lo + hi) / 2
        · exact d j h1 hj
        · exact Bool.eq_false_iff.mpr fun hgj => hg (mono _ _ (by omega) (not_lt.mp hj) h2 hgj)
    · exact ⟨le_refl _, h, fun hne => absurd rfl hne, fun j h1 h2 => by omega⟩

/-- `sineReaches` falls once between 1 and `A`. -/
theorem sineReaches_mono {A N u : ℕ} (hN : 1 ≤ N) (hu : u ≤ N) {i j : ℕ} (hij : i ≤ j) (hi : 1 ≤ i)
    (hj : j ≤ A) (h : sineReaches A N u j = true) : sineReaches A N u i = true := by
  rw [sineReaches_iff hi (hij.trans hj) hN hu]
  rw [sineReaches_iff (hi.trans hij) hj hN hu] at h
  refine le_trans ?_ h
  have : (i : ℝ) ≤ j := by exact_mod_cast hij
  exact div_le_div_of_nonneg_right (by linarith) (by positivity)

/-- The quarter wave as a comparison: for `1 <= k <= A`, the value is at least `k` exactly when the sine reaches
`(2k-1)/(2A)`; and it is at most `A`. -/
theorem qsinQuarter_spec {A N u : ℕ} (hA : A ≤ 32767) (hN : 1 ≤ N) (hu : u ≤ N) :
    qsinQuarter A N u ≤ A ∧ ∀ k, 1 ≤ k → k ≤ A →
      (k ≤ qsinQuarter A N u ↔ ((2 * k - 1 : ℝ)) / (2 * A) ≤ sin (2 * π * (u / (4 * N)))) := by
  have mono : ∀ i j, 0 < i → i ≤ j → j < A + 1 → sineReaches A N u j = true → sineReaches A N u i = true :=
    fun i j h1 h2 h3 => sineReaches_mono hN hu h2 h1 (by omega)
  have ⟨_, b, c, d⟩ := largestGood_spec 16 0 (A + 1) mono (by omega) (by norm_num; omega)
  refine ⟨by unfold qsinQuarter; omega, fun k h1 h2 => ?_⟩
  rw [← sineReaches_iff h1 h2 hN hu]
  unfold qsinQuarter
  constructor
  · intro hk
    exact mono k _ (by omega) hk b (c (by omega))
  · intro hk
    by_contra hlt
    exact absurd hk (by simp [d k (by omega) (by omega)])

/-- The quarter wave never exceeds the amplitude, whatever it is asked for. -/
theorem qsinQuarter_le (A N u : ℕ) : qsinQuarter A N u ≤ A := by
  have key : ∀ good fuel lo hi, lo < hi → largestGood good fuel lo hi < hi := by
    intro good fuel
    induction fuel with
    | zero => intro lo hi h; exact h
    | succ f ih =>
      intro lo hi h
      simp only [largestGood]
      split
      · split
        · exact ih _ _ (by omega)
        · exact lt_of_lt_of_le (ih _ _ (by omega)) (by omega)
      · exact h
  have := key (sineReaches A N u) 16 0 (A + 1) (by omega)
  unfold qsinQuarter
  omega

/-- The quarter wave begins at zero, for every amplitude. -/
theorem qsinQuarter_zero (A : ℕ) {N : ℕ} (hN : 1 ≤ N) : qsinQuarter A N 0 = 0 := by
  have key : ∀ fuel hi, hi ≤ A + 1 → largestGood (sineReaches A N 0) fuel 0 hi = 0 := by
    intro fuel
    induction fuel with
    | zero => intro hi _; rfl
    | succ f ih =>
      intro hi hh
      simp only [largestGood]
      split
      · have hf : sineReaches A N 0 ((0 + hi) / 2) = false := by
          rw [Bool.eq_false_iff]
          intro h
          rw [sineReaches_iff (by omega) (by omega) hN (by omega)] at h
          have h1 : (1 : ℝ) ≤ (((0 + hi) / 2 : ℕ) : ℝ) := by exact_mod_cast (by omega : 1 ≤ (0 + hi) / 2)
          have h2 : (0 : ℝ) < A := by exact_mod_cast (by omega : 0 < A)
          have : 0 < (2 * (((0 + hi) / 2 : ℕ) : ℝ) - 1) / (2 * A) := div_pos (by linarith) (by linarith)
          simp only [Nat.cast_zero, zero_div, mul_zero, sin_zero] at h
          linarith
        rw [hf]
        exact ih _ (by omega)
      · rfl
  exact key 16 (A + 1) le_rfl

/-- The quarter wave ends at the amplitude. -/
theorem qsinQuarter_peak {A N : ℕ} (hA : A ≤ 32767) (hN : 1 ≤ N) : qsinQuarter A N N = A := by
  have ⟨hle, h⟩ := qsinQuarter_spec hA hN (le_refl N)
  rcases Nat.eq_zero_or_pos A with h0 | h0
  · omega
  · refine le_antisymm hle ((h A h0 le_rfl).mpr ?_)
    have hN0 : (N : ℝ) ≠ 0 := by exact_mod_cast (by omega : N ≠ 0)
    have hA1 : (1 : ℝ) ≤ A := by exact_mod_cast h0
    rw [show 2 * π * ((N : ℝ) / (4 * N)) = π / 2 by field_simp; ring, sin_pi_div_two,
      div_le_one (by linarith)]
    linarith

/-- The quarter wave is the rounded product with the real sine. -/
theorem qsinQuarter_rounds {A N u : ℕ} (h1 : 1 ≤ A) (hA : A ≤ 32767) (hN : 1 ≤ N) (hu : u ≤ N) :
    (qsinQuarter A N u : ℤ) = ⌊(A : ℝ) * sin (2 * π * (u / (4 * N))) + 1 / 2⌋ := by
  have ⟨hle, hs⟩ := qsinQuarter_spec hA hN hu
  have A0 : (1 : ℝ) ≤ A := by exact_mod_cast h1
  have hN0 : (0 : ℝ) < N := by exact_mod_cast hN
  have hu1 : (u : ℝ) ≤ N := by exact_mod_cast hu
  have e : 2 * π * (u / (4 * N)) ≤ π / 2 := by
    rw [← mul_div_assoc, div_le_div_iff₀ (by linarith) (by norm_num)]
    nlinarith [pi_pos]
  have hx0 : 0 ≤ sin (2 * π * (u / (4 * N))) :=
    sin_nonneg_of_nonneg_of_le_pi (by have := pi_pos; positivity) (by linarith [pi_pos])
  have hx1 := sin_le_one (2 * π * (u / (4 * N)))
  symm
  rw [Int.floor_eq_iff, Int.cast_natCast]
  constructor
  · rcases Nat.eq_zero_or_pos (qsinQuarter A N u) with hk | hk
    · rw [hk, Nat.cast_zero]
      nlinarith
    · have := (hs _ hk hle).mp le_rfl
      rw [div_le_iff₀ (by linarith)] at this
      linarith
  · rcases Nat.lt_or_ge (qsinQuarter A N u) A with hk | hk
    · have := (hs (qsinQuarter A N u + 1) (by omega) hk).not.mp (by omega)
      rw [not_le, lt_div_iff₀ (by linarith)] at this
      push_cast at this
      linarith
    · rw [le_antisymm hle hk]
      nlinarith

/-! ### Unfolding from the quarter -/

/-- The unfolded value by the remainder `r` of `t` modulo `4N`. -/
theorem qsin_of_remainder {A N r : ℕ} {t : ℤ} (h : t % (4 * N : ℕ) = r) :
    qsin A t (4 * N) =
      if r ≤ N then (qsinQuarter A N r : ℤ)
      else if r ≤ 2 * N then (qsinQuarter A N (2 * N - r) : ℤ)
      else if r ≤ 3 * N then -(qsinQuarter A N (r - 2 * N) : ℤ)
      else -(qsinQuarter A N (4 * N - r) : ℤ) := by
  have hd : 4 * N / 4 = N := by omega
  have ht : (t % (4 * N : ℕ)).toNat = r := by omega
  simp only [qsin, hd, ht]

/-- Every `t` has a remainder to which `qsin_of_remainder` applies. -/
theorem exists_remainder {N : ℕ} (t : ℤ) (hN : 1 ≤ N) : ∃ r : ℕ, r < 4 * N ∧ t % (4 * N : ℕ) = r := by
  have h0 : (0 : ℤ) ≤ t % (4 * N : ℕ) := Int.emod_nonneg _ (by omega)
  have h1 : t % (4 * N : ℕ) < (4 * N : ℕ) := Int.emod_lt_of_pos _ (by omega)
  exact ⟨(t % (4 * N : ℕ)).toNat, by omega, by omega⟩

/-- `QSIN` sees only the remainder of its argument. -/
theorem qsin_congr {A D : ℕ} {t u : ℤ} (h : t % D = u % D) : qsin A t D = qsin A u D := by
  simp only [qsin, h]

end Sys2Proof.Machine
end

