-- ==== Sys2Proof/Laws/State.lean ====
section
/-! SUPPORT. One lemma per field per named operation of Machine/Ops.lean: what the operation writes there, or that it leaves
the field alone. -/

namespace Sys2Proof.Machine

variable (s : State)

/-! ### `logRead` -/

@[simp] theorem State.logRead_sampleRate (v : Word) : (s.logRead v).sampleRate = s.sampleRate := rfl
@[simp] theorem State.logRead_symbolRate (v : Word) : (s.logRead v).symbolRate = s.symbolRate := rfl
@[simp] theorem State.logRead_mode (v : Word) : (s.logRead v).mode = s.mode := rfl
@[simp] theorem State.logRead_busy (v : Word) : (s.logRead v).busy = s.busy := rfl
@[simp] theorem State.logRead_stopPending (v : Word) : (s.logRead v).stopPending = s.stopPending := rfl
@[simp] theorem State.logRead_sps (v : Word) : (s.logRead v).sps = s.sps := rfl
@[simp] theorem State.logRead_cause (v : Word) : (s.logRead v).cause = s.cause := rfl
@[simp] theorem State.logRead_cur (v : Word) : (s.logRead v).cur = s.cur := rfl
@[simp] theorem State.logRead_nidx (v : Word) : (s.logRead v).nidx = s.nidx := rfl
@[simp] theorem State.logRead_phase (v : Word) : (s.logRead v).phase = s.phase := rfl
@[simp] theorem State.logRead_out (v : Word) : (s.logRead v).out = s.out := rfl
@[simp] theorem State.logRead_source (v : Word) : (s.logRead v).source = s.source := rfl
@[simp] theorem State.logRead_agenda (v : Word) : (s.logRead v).agenda = s.agenda := rfl
@[simp] theorem State.logRead_reads (v : Word) : (s.logRead v).reads = s.reads ++ [v] := rfl
@[simp] theorem State.logRead_taken (v : Word) : (s.logRead v).taken = s.taken := rfl
@[simp] theorem State.logRead_runBase (v : Word) : (s.logRead v).runBase = s.runBase := rfl

/-! ### `setSampleRate` -/

@[simp] theorem State.setSampleRate_sampleRate (v : Word) : (s.setSampleRate v).sampleRate = v := rfl
@[simp] theorem State.setSampleRate_symbolRate (v : Word) : (s.setSampleRate v).symbolRate = s.symbolRate := rfl
@[simp] theorem State.setSampleRate_mode (v : Word) : (s.setSampleRate v).mode = s.mode := rfl
@[simp] theorem State.setSampleRate_busy (v : Word) : (s.setSampleRate v).busy = s.busy := rfl
@[simp] theorem State.setSampleRate_stopPending (v : Word) : (s.setSampleRate v).stopPending = s.stopPending := rfl
@[simp] theorem State.setSampleRate_sps (v : Word) : (s.setSampleRate v).sps = s.sps := rfl
@[simp] theorem State.setSampleRate_cause (v : Word) : (s.setSampleRate v).cause = s.cause := rfl
@[simp] theorem State.setSampleRate_cur (v : Word) : (s.setSampleRate v).cur = s.cur := rfl
@[simp] theorem State.setSampleRate_nidx (v : Word) : (s.setSampleRate v).nidx = s.nidx := rfl
@[simp] theorem State.setSampleRate_phase (v : Word) : (s.setSampleRate v).phase = s.phase := rfl
@[simp] theorem State.setSampleRate_out (v : Word) : (s.setSampleRate v).out = s.out := rfl
@[simp] theorem State.setSampleRate_source (v : Word) : (s.setSampleRate v).source = s.source := rfl
@[simp] theorem State.setSampleRate_agenda (v : Word) : (s.setSampleRate v).agenda = s.agenda := rfl
@[simp] theorem State.setSampleRate_reads (v : Word) : (s.setSampleRate v).reads = s.reads := rfl
@[simp] theorem State.setSampleRate_taken (v : Word) : (s.setSampleRate v).taken = s.taken := rfl
@[simp] theorem State.setSampleRate_runBase (v : Word) : (s.setSampleRate v).runBase = s.runBase := rfl

/-! ### `setSymbolRate` -/

@[simp] theorem State.setSymbolRate_sampleRate (v : Word) : (s.setSymbolRate v).sampleRate = s.sampleRate := rfl
@[simp] theorem State.setSymbolRate_symbolRate (v : Word) : (s.setSymbolRate v).symbolRate = v := rfl
@[simp] theorem State.setSymbolRate_mode (v : Word) : (s.setSymbolRate v).mode = s.mode := rfl
@[simp] theorem State.setSymbolRate_busy (v : Word) : (s.setSymbolRate v).busy = s.busy := rfl
@[simp] theorem State.setSymbolRate_stopPending (v : Word) : (s.setSymbolRate v).stopPending = s.stopPending := rfl
@[simp] theorem State.setSymbolRate_sps (v : Word) : (s.setSymbolRate v).sps = s.sps := rfl
@[simp] theorem State.setSymbolRate_cause (v : Word) : (s.setSymbolRate v).cause = s.cause := rfl
@[simp] theorem State.setSymbolRate_cur (v : Word) : (s.setSymbolRate v).cur = s.cur := rfl
@[simp] theorem State.setSymbolRate_nidx (v : Word) : (s.setSymbolRate v).nidx = s.nidx := rfl
@[simp] theorem State.setSymbolRate_phase (v : Word) : (s.setSymbolRate v).phase = s.phase := rfl
@[simp] theorem State.setSymbolRate_out (v : Word) : (s.setSymbolRate v).out = s.out := rfl
@[simp] theorem State.setSymbolRate_source (v : Word) : (s.setSymbolRate v).source = s.source := rfl
@[simp] theorem State.setSymbolRate_agenda (v : Word) : (s.setSymbolRate v).agenda = s.agenda := rfl
@[simp] theorem State.setSymbolRate_reads (v : Word) : (s.setSymbolRate v).reads = s.reads := rfl
@[simp] theorem State.setSymbolRate_taken (v : Word) : (s.setSymbolRate v).taken = s.taken := rfl
@[simp] theorem State.setSymbolRate_runBase (v : Word) : (s.setSymbolRate v).runBase = s.runBase := rfl

/-! ### `raiseConfigurationError` -/

@[simp] theorem State.raiseConfigurationError_sampleRate (c : Cause) :
    (s.raiseConfigurationError c).sampleRate = s.sampleRate := rfl
@[simp] theorem State.raiseConfigurationError_symbolRate (c : Cause) :
    (s.raiseConfigurationError c).symbolRate = s.symbolRate := rfl
@[simp] theorem State.raiseConfigurationError_mode (c : Cause) : (s.raiseConfigurationError c).mode = .fault := rfl
@[simp] theorem State.raiseConfigurationError_busy (c : Cause) : (s.raiseConfigurationError c).busy = s.busy := rfl
@[simp] theorem State.raiseConfigurationError_stopPending (c : Cause) :
    (s.raiseConfigurationError c).stopPending = s.stopPending := rfl
@[simp] theorem State.raiseConfigurationError_sps (c : Cause) : (s.raiseConfigurationError c).sps = s.sps := rfl
@[simp] theorem State.raiseConfigurationError_cause (c : Cause) : (s.raiseConfigurationError c).cause = c := rfl
@[simp] theorem State.raiseConfigurationError_cur (c : Cause) : (s.raiseConfigurationError c).cur = s.cur := rfl
@[simp] theorem State.raiseConfigurationError_nidx (c : Cause) : (s.raiseConfigurationError c).nidx = s.nidx := rfl
@[simp] theorem State.raiseConfigurationError_phase (c : Cause) : (s.raiseConfigurationError c).phase = s.phase := rfl
@[simp] theorem State.raiseConfigurationError_out (c : Cause) : (s.raiseConfigurationError c).out = s.out := rfl
@[simp] theorem State.raiseConfigurationError_source (c : Cause) :
    (s.raiseConfigurationError c).source = s.source := rfl
@[simp] theorem State.raiseConfigurationError_agenda (c : Cause) :
    (s.raiseConfigurationError c).agenda = s.agenda := rfl
@[simp] theorem State.raiseConfigurationError_reads (c : Cause) : (s.raiseConfigurationError c).reads = s.reads := rfl
@[simp] theorem State.raiseConfigurationError_taken (c : Cause) : (s.raiseConfigurationError c).taken = [] := rfl
@[simp] theorem State.raiseConfigurationError_runBase (c : Cause) :
    (s.raiseConfigurationError c).runBase = s.out.length := rfl

/-! ### `resetBlock` -/

@[simp] theorem State.resetBlock_sampleRate : (s.resetBlock).sampleRate = 0#32 := rfl
@[simp] theorem State.resetBlock_symbolRate : (s.resetBlock).symbolRate = 0#32 := rfl
@[simp] theorem State.resetBlock_mode : (s.resetBlock).mode = .idle := rfl
@[simp] theorem State.resetBlock_busy : (s.resetBlock).busy = false := rfl
@[simp] theorem State.resetBlock_stopPending : (s.resetBlock).stopPending = false := rfl
@[simp] theorem State.resetBlock_sps : (s.resetBlock).sps = 0#32 := rfl
@[simp] theorem State.resetBlock_cause : (s.resetBlock).cause = .none := rfl
@[simp] theorem State.resetBlock_cur : (s.resetBlock).cur = 0#3 := rfl
@[simp] theorem State.resetBlock_nidx : (s.resetBlock).nidx = 0#32 := rfl
@[simp] theorem State.resetBlock_phase : (s.resetBlock).phase = 0#32 := rfl
@[simp] theorem State.resetBlock_out : (s.resetBlock).out = s.out := rfl
@[simp] theorem State.resetBlock_source : (s.resetBlock).source = s.source := rfl
@[simp] theorem State.resetBlock_agenda : (s.resetBlock).agenda = s.agenda := rfl
@[simp] theorem State.resetBlock_reads : (s.resetBlock).reads = s.reads := rfl
@[simp] theorem State.resetBlock_taken : (s.resetBlock).taken = [] := rfl
@[simp] theorem State.resetBlock_runBase : (s.resetBlock).runBase = s.out.length := rfl

/-! ### `beginRun` -/

@[simp] theorem State.beginRun_sampleRate : (s.beginRun).sampleRate = s.sampleRate := rfl
@[simp] theorem State.beginRun_symbolRate : (s.beginRun).symbolRate = s.symbolRate := rfl
@[simp] theorem State.beginRun_mode : (s.beginRun).mode = .run := rfl
@[simp] theorem State.beginRun_busy : (s.beginRun).busy = false := rfl
@[simp] theorem State.beginRun_stopPending : (s.beginRun).stopPending = false := rfl
@[simp] theorem State.beginRun_sps : (s.beginRun).sps = s.sampleRate / s.symbolRate := rfl
@[simp] theorem State.beginRun_cause : (s.beginRun).cause = .none := rfl
@[simp] theorem State.beginRun_cur : (s.beginRun).cur = 0#3 := rfl
@[simp] theorem State.beginRun_nidx : (s.beginRun).nidx = 0#32 := rfl
@[simp] theorem State.beginRun_phase : (s.beginRun).phase = 0#32 := rfl
@[simp] theorem State.beginRun_out : (s.beginRun).out = s.out := rfl
@[simp] theorem State.beginRun_source : (s.beginRun).source = s.source := rfl
@[simp] theorem State.beginRun_agenda : (s.beginRun).agenda = s.agenda := rfl
@[simp] theorem State.beginRun_reads : (s.beginRun).reads = s.reads := rfl
@[simp] theorem State.beginRun_taken : (s.beginRun).taken = [] := rfl
@[simp] theorem State.beginRun_runBase : (s.beginRun).runBase = s.out.length := rfl

/-! ### `endRun` -/

@[simp] theorem State.endRun_sampleRate : (s.endRun).sampleRate = s.sampleRate := rfl
@[simp] theorem State.endRun_symbolRate : (s.endRun).symbolRate = s.symbolRate := rfl
@[simp] theorem State.endRun_mode : (s.endRun).mode = .idle := rfl
@[simp] theorem State.endRun_busy : (s.endRun).busy = s.busy := rfl
@[simp] theorem State.endRun_stopPending : (s.endRun).stopPending = s.stopPending := rfl
@[simp] theorem State.endRun_sps : (s.endRun).sps = s.sps := rfl
@[simp] theorem State.endRun_cause : (s.endRun).cause = s.cause := rfl
@[simp] theorem State.endRun_cur : (s.endRun).cur = s.cur := rfl
@[simp] theorem State.endRun_nidx : (s.endRun).nidx = s.nidx := rfl
@[simp] theorem State.endRun_phase : (s.endRun).phase = s.phase := rfl
@[simp] theorem State.endRun_out : (s.endRun).out = s.out := rfl
@[simp] theorem State.endRun_source : (s.endRun).source = s.source := rfl
@[simp] theorem State.endRun_agenda : (s.endRun).agenda = s.agenda := rfl
@[simp] theorem State.endRun_reads : (s.endRun).reads = s.reads := rfl
@[simp] theorem State.endRun_taken : (s.endRun).taken = s.taken := rfl
@[simp] theorem State.endRun_runBase : (s.endRun).runBase = s.runBase := rfl

/-! ### `requestStop` -/

@[simp] theorem State.requestStop_sampleRate : (s.requestStop).sampleRate = s.sampleRate := rfl
@[simp] theorem State.requestStop_symbolRate : (s.requestStop).symbolRate = s.symbolRate := rfl
@[simp] theorem State.requestStop_mode : (s.requestStop).mode = s.mode := rfl
@[simp] theorem State.requestStop_busy : (s.requestStop).busy = s.busy := rfl
@[simp] theorem State.requestStop_stopPending : (s.requestStop).stopPending = true := rfl
@[simp] theorem State.requestStop_sps : (s.requestStop).sps = s.sps := rfl
@[simp] theorem State.requestStop_cause : (s.requestStop).cause = s.cause := rfl
@[simp] theorem State.requestStop_cur : (s.requestStop).cur = s.cur := rfl
@[simp] theorem State.requestStop_nidx : (s.requestStop).nidx = s.nidx := rfl
@[simp] theorem State.requestStop_phase : (s.requestStop).phase = s.phase := rfl
@[simp] theorem State.requestStop_out : (s.requestStop).out = s.out := rfl
@[simp] theorem State.requestStop_source : (s.requestStop).source = s.source := rfl
@[simp] theorem State.requestStop_agenda : (s.requestStop).agenda = s.agenda := rfl
@[simp] theorem State.requestStop_reads : (s.requestStop).reads = s.reads := rfl
@[simp] theorem State.requestStop_taken : (s.requestStop).taken = s.taken := rfl
@[simp] theorem State.requestStop_runBase : (s.requestStop).runBase = s.runBase := rfl

/-! ### `takeWord` -/

@[simp] theorem State.takeWord_sampleRate (w : Cmd) : (s.takeWord w).sampleRate = s.sampleRate := rfl
@[simp] theorem State.takeWord_symbolRate (w : Cmd) : (s.takeWord w).symbolRate = s.symbolRate := rfl
@[simp] theorem State.takeWord_mode (w : Cmd) : (s.takeWord w).mode = s.mode := rfl
@[simp] theorem State.takeWord_busy (w : Cmd) : (s.takeWord w).busy = true := rfl
@[simp] theorem State.takeWord_stopPending (w : Cmd) : (s.takeWord w).stopPending = s.stopPending := rfl
@[simp] theorem State.takeWord_sps (w : Cmd) : (s.takeWord w).sps = s.sps := rfl
@[simp] theorem State.takeWord_cause (w : Cmd) : (s.takeWord w).cause = s.cause := rfl
@[simp] theorem State.takeWord_cur (w : Cmd) : (s.takeWord w).cur = w := rfl
@[simp] theorem State.takeWord_nidx (w : Cmd) : (s.takeWord w).nidx = 0#32 := rfl
@[simp] theorem State.takeWord_phase (w : Cmd) : (s.takeWord w).phase = 0#32 := rfl
@[simp] theorem State.takeWord_out (w : Cmd) : (s.takeWord w).out = s.out := rfl
@[simp] theorem State.takeWord_source (w : Cmd) : (s.takeWord w).source = s.source := rfl
@[simp] theorem State.takeWord_agenda (w : Cmd) : (s.takeWord w).agenda = s.agenda := rfl
@[simp] theorem State.takeWord_reads (w : Cmd) : (s.takeWord w).reads = s.reads := rfl
@[simp] theorem State.takeWord_taken (w : Cmd) : (s.takeWord w).taken = s.taken ++ [w] := rfl
@[simp] theorem State.takeWord_runBase (w : Cmd) : (s.takeWord w).runBase = s.runBase := rfl

/-! ### `pushSample` -/

@[simp] theorem State.pushSample_sampleRate (x : Sample) : (s.pushSample x).sampleRate = s.sampleRate := rfl
@[simp] theorem State.pushSample_symbolRate (x : Sample) : (s.pushSample x).symbolRate = s.symbolRate := rfl
@[simp] theorem State.pushSample_mode (x : Sample) : (s.pushSample x).mode = s.mode := rfl
@[simp] theorem State.pushSample_busy (x : Sample) : (s.pushSample x).busy = s.busy := rfl
@[simp] theorem State.pushSample_stopPending (x : Sample) : (s.pushSample x).stopPending = s.stopPending := rfl
@[simp] theorem State.pushSample_sps (x : Sample) : (s.pushSample x).sps = s.sps := rfl
@[simp] theorem State.pushSample_cause (x : Sample) : (s.pushSample x).cause = s.cause := rfl
@[simp] theorem State.pushSample_cur (x : Sample) : (s.pushSample x).cur = s.cur := rfl
@[simp] theorem State.pushSample_nidx (x : Sample) : (s.pushSample x).nidx = s.nidx := rfl
@[simp] theorem State.pushSample_phase (x : Sample) : (s.pushSample x).phase = s.phase := rfl
@[simp] theorem State.pushSample_out (x : Sample) : (s.pushSample x).out = s.out ++ [x] := rfl
@[simp] theorem State.pushSample_source (x : Sample) : (s.pushSample x).source = s.source := rfl
@[simp] theorem State.pushSample_agenda (x : Sample) : (s.pushSample x).agenda = s.agenda := rfl
@[simp] theorem State.pushSample_reads (x : Sample) : (s.pushSample x).reads = s.reads := rfl
@[simp] theorem State.pushSample_taken (x : Sample) : (s.pushSample x).taken = s.taken := rfl
@[simp] theorem State.pushSample_runBase (x : Sample) : (s.pushSample x).runBase = s.runBase := rfl

/-! ### `finishSymbol` -/

@[simp] theorem State.finishSymbol_sampleRate : (s.finishSymbol).sampleRate = s.sampleRate := rfl
@[simp] theorem State.finishSymbol_symbolRate : (s.finishSymbol).symbolRate = s.symbolRate := rfl
@[simp] theorem State.finishSymbol_mode : (s.finishSymbol).mode = if s.stopPending then .idle else s.mode := rfl
@[simp] theorem State.finishSymbol_busy : (s.finishSymbol).busy = false := rfl
@[simp] theorem State.finishSymbol_stopPending : (s.finishSymbol).stopPending = false := rfl
@[simp] theorem State.finishSymbol_sps : (s.finishSymbol).sps = s.sps := rfl
@[simp] theorem State.finishSymbol_cause : (s.finishSymbol).cause = s.cause := rfl
@[simp] theorem State.finishSymbol_cur : (s.finishSymbol).cur = s.cur := rfl
@[simp] theorem State.finishSymbol_nidx : (s.finishSymbol).nidx = 0#32 := rfl
@[simp] theorem State.finishSymbol_phase : (s.finishSymbol).phase = 0#32 := rfl
@[simp] theorem State.finishSymbol_out : (s.finishSymbol).out = s.out := rfl
@[simp] theorem State.finishSymbol_source : (s.finishSymbol).source = s.source := rfl
@[simp] theorem State.finishSymbol_agenda : (s.finishSymbol).agenda = s.agenda := rfl
@[simp] theorem State.finishSymbol_reads : (s.finishSymbol).reads = s.reads := rfl
@[simp] theorem State.finishSymbol_taken : (s.finishSymbol).taken = s.taken := rfl
@[simp] theorem State.finishSymbol_runBase : (s.finishSymbol).runBase = s.runBase := rfl

/-! ### `advanceSample` -/

@[simp] theorem State.advanceSample_sampleRate (M : Nat) : (s.advanceSample M).sampleRate = s.sampleRate := rfl
@[simp] theorem State.advanceSample_symbolRate (M : Nat) : (s.advanceSample M).symbolRate = s.symbolRate := rfl
@[simp] theorem State.advanceSample_mode (M : Nat) : (s.advanceSample M).mode = s.mode := rfl
@[simp] theorem State.advanceSample_busy (M : Nat) : (s.advanceSample M).busy = s.busy := rfl
@[simp] theorem State.advanceSample_stopPending (M : Nat) : (s.advanceSample M).stopPending = s.stopPending := rfl
@[simp] theorem State.advanceSample_sps (M : Nat) : (s.advanceSample M).sps = s.sps := rfl
@[simp] theorem State.advanceSample_cause (M : Nat) : (s.advanceSample M).cause = s.cause := rfl
@[simp] theorem State.advanceSample_cur (M : Nat) : (s.advanceSample M).cur = s.cur := rfl
@[simp] theorem State.advanceSample_nidx (M : Nat) : (s.advanceSample M).nidx = s.nidx + 1#32 := rfl
@[simp] theorem State.advanceSample_phase (M : Nat) :
    (s.advanceSample M).phase = BitVec.ofNat 32 (nextPhase M s.sps.toNat s.phase.toNat) := rfl
@[simp] theorem State.advanceSample_out (M : Nat) : (s.advanceSample M).out = s.out := rfl
@[simp] theorem State.advanceSample_source (M : Nat) : (s.advanceSample M).source = s.source := rfl
@[simp] theorem State.advanceSample_agenda (M : Nat) : (s.advanceSample M).agenda = s.agenda := rfl
@[simp] theorem State.advanceSample_reads (M : Nat) : (s.advanceSample M).reads = s.reads := rfl
@[simp] theorem State.advanceSample_taken (M : Nat) : (s.advanceSample M).taken = s.taken := rfl
@[simp] theorem State.advanceSample_runBase (M : Nat) : (s.advanceSample M).runBase = s.runBase := rfl

/-! ### `setSource` -/

@[simp] theorem State.setSource_sampleRate (ws : List Cmd) : (s.setSource ws).sampleRate = s.sampleRate := rfl
@[simp] theorem State.setSource_symbolRate (ws : List Cmd) : (s.setSource ws).symbolRate = s.symbolRate := rfl
@[simp] theorem State.setSource_mode (ws : List Cmd) : (s.setSource ws).mode = s.mode := rfl
@[simp] theorem State.setSource_busy (ws : List Cmd) : (s.setSource ws).busy = s.busy := rfl
@[simp] theorem State.setSource_stopPending (ws : List Cmd) : (s.setSource ws).stopPending = s.stopPending := rfl
@[simp] theorem State.setSource_sps (ws : List Cmd) : (s.setSource ws).sps = s.sps := rfl
@[simp] theorem State.setSource_cause (ws : List Cmd) : (s.setSource ws).cause = s.cause := rfl
@[simp] theorem State.setSource_cur (ws : List Cmd) : (s.setSource ws).cur = s.cur := rfl
@[simp] theorem State.setSource_nidx (ws : List Cmd) : (s.setSource ws).nidx = s.nidx := rfl
@[simp] theorem State.setSource_phase (ws : List Cmd) : (s.setSource ws).phase = s.phase := rfl
@[simp] theorem State.setSource_out (ws : List Cmd) : (s.setSource ws).out = s.out := rfl
@[simp] theorem State.setSource_source (ws : List Cmd) : (s.setSource ws).source = ws := rfl
@[simp] theorem State.setSource_agenda (ws : List Cmd) : (s.setSource ws).agenda = s.agenda := rfl
@[simp] theorem State.setSource_reads (ws : List Cmd) : (s.setSource ws).reads = s.reads := rfl
@[simp] theorem State.setSource_taken (ws : List Cmd) : (s.setSource ws).taken = s.taken := rfl
@[simp] theorem State.setSource_runBase (ws : List Cmd) : (s.setSource ws).runBase = s.runBase := rfl

/-! ### `setAgenda` -/

@[simp] theorem State.setAgenda_sampleRate (es : List Event) : (s.setAgenda es).sampleRate = s.sampleRate := rfl
@[simp] theorem State.setAgenda_symbolRate (es : List Event) : (s.setAgenda es).symbolRate = s.symbolRate := rfl
@[simp] theorem State.setAgenda_mode (es : List Event) : (s.setAgenda es).mode = s.mode := rfl
@[simp] theorem State.setAgenda_busy (es : List Event) : (s.setAgenda es).busy = s.busy := rfl
@[simp] theorem State.setAgenda_stopPending (es : List Event) : (s.setAgenda es).stopPending = s.stopPending := rfl
@[simp] theorem State.setAgenda_sps (es : List Event) : (s.setAgenda es).sps = s.sps := rfl
@[simp] theorem State.setAgenda_cause (es : List Event) : (s.setAgenda es).cause = s.cause := rfl
@[simp] theorem State.setAgenda_cur (es : List Event) : (s.setAgenda es).cur = s.cur := rfl
@[simp] theorem State.setAgenda_nidx (es : List Event) : (s.setAgenda es).nidx = s.nidx := rfl
@[simp] theorem State.setAgenda_phase (es : List Event) : (s.setAgenda es).phase = s.phase := rfl
@[simp] theorem State.setAgenda_out (es : List Event) : (s.setAgenda es).out = s.out := rfl
@[simp] theorem State.setAgenda_source (es : List Event) : (s.setAgenda es).source = s.source := rfl
@[simp] theorem State.setAgenda_agenda (es : List Event) : (s.setAgenda es).agenda = es := rfl
@[simp] theorem State.setAgenda_reads (es : List Event) : (s.setAgenda es).reads = s.reads := rfl
@[simp] theorem State.setAgenda_taken (es : List Event) : (s.setAgenda es).taken = s.taken := rfl
@[simp] theorem State.setAgenda_runBase (es : List Event) : (s.setAgenda es).runBase = s.runBase := rfl

end Sys2Proof.Machine
end

