-- ==== Sys2Proof/Laws/Step.lean ====
section
/-! SUPPORT. What the shared operations, an instruction and a step can do, said once: the cases of accept and emit, the
answer of each instruction, and every move a step can make. -/

namespace Sys2Proof.Machine

variable {s t : State}

/-! ### Views -/

theorem State.symReady_iff : s.symReady = true ↔ s.mode = .run ∧ s.busy = false := by
  simp [State.symReady]

theorem State.symReady_false_iff : s.symReady = false ↔ s.mode ≠ .run ∨ s.busy = true := by
  rw [← Bool.not_eq_true, State.symReady_iff]
  cases s.busy <;> simp

theorem State.atLastSample_iff : s.atLastSample = true ↔ s.nidx.toNat + 1 = s.sps.toNat := by
  simp [State.atLastSample]

@[simp] theorem State.symReady_setAgenda (es : List Event) : (s.setAgenda es).symReady = s.symReady := rfl
@[simp] theorem State.symReady_setSource (ws : List Cmd) : (s.setSource ws).symReady = s.symReady := rfl

/-! ### Accept and emit -/

theorem State.acceptCommand_ready (w : Cmd) (h : s.symReady = true) : s.acceptCommand w = s.takeWord w := by
  simp [State.acceptCommand, h]

theorem State.acceptCommand_wait (w : Cmd) (h : s.symReady = false) : s.acceptCommand w = s := by
  simp [State.acceptCommand, h]

theorem State.emitSample_wait (c : Config) (h : s.busy = false) : s.emitSample c = s := by
  simp [State.emitSample, h]

theorem State.emitSample_last (c : Config) (h : s.busy = true) (hl : s.nidx.toNat + 1 = s.sps.toNat) :
    s.emitSample c = (s.pushSample (s.nextSample c)).finishSymbol := by
  simp [State.emitSample, h, State.atLastSample, hl]

theorem State.emitSample_more (c : Config) (h : s.busy = true) (hl : s.nidx.toNat + 1 ≠ s.sps.toNat) :
    s.emitSample c = (s.pushSample (s.nextSample c)).advanceSample c.carrierMult := by
  simp [State.emitSample, h, State.atLastSample, hl]

/-! ### START -/

/-- What `START` does: nothing outside `IDLE`, a run when the check passes, the exception when it does not. -/
theorem State.startRun_cases :
    (s.mode ≠ .idle ∧ s.startRun = s) ∨
    (s.mode = .idle ∧ s.configurationCheck = .none ∧ s.startRun = s.beginRun) ∨
    (s.mode = .idle ∧ s.configurationCheck ≠ .none ∧
      s.startRun = s.raiseConfigurationError s.configurationCheck) := by
  by_cases hm : s.mode = .idle
  · refine .inr ?_
    cases hc : s.configurationCheck <;> simp [State.startRun, hm, hc]
  · exact .inl ⟨hm, by simp [State.startRun, hm]⟩

/-- The check passes exactly when both rates are non-zero and the ratio is integral. -/
theorem State.configurationCheck_none :
    s.configurationCheck = .none ↔
      s.symbolRate ≠ 0#32 ∧ s.sampleRate ≠ 0#32 ∧ s.sampleRate % s.symbolRate = 0#32 := by
  unfold State.configurationCheck
  split <;> [skip; split <;> [skip; split]] <;> simp_all

/-- `START` in `IDLE` with rates that pass the check begins a run. -/
theorem State.startRun_begins (hm : s.mode = .idle) (hc : s.configurationCheck = .none) :
    s.startRun = s.beginRun := by
  simp [State.startRun, hm, hc]

/-- The state made ready for a command word is ready, with eight samples a symbol. -/
theorem State.readyBlock_ready : s.readyBlock.symReady = true ∧ s.readyBlock.sps = 8#32 := by
  have h : s.readyBlock = ((s.resetBlock.setSampleRate 48000#32).setSymbolRate 6000#32).beginRun :=
    State.startRun_begins rfl
      (State.configurationCheck_none.mpr (by
        simp only [State.setSymbolRate_symbolRate, State.setSymbolRate_sampleRate, State.setSampleRate_sampleRate]
        decide))
  rw [h]
  refine ⟨rfl, ?_⟩
  simp only [State.beginRun_sps, State.setSymbolRate_symbolRate, State.setSymbolRate_sampleRate,
    State.setSampleRate_sampleRate]
  decide

/-! ### Instructions -/

/-- One instruction's effect on the block in state `s`: every move that `exec` can make. -/
inductive InstrMove (s : State) : Instr → State → Prop where
  | nothing {i : Instr} : InstrMove s i s
  | take {i : Instr} (w : Cmd) (he : encode i = .sym w) (h : s.symReady = true) : InstrMove s i (s.takeWord w)
  | read (reg : BitVec 3) (d : Word) : InstrMove s (.rd reg d) (s.logRead (s.cfgRead reg))
  | sampleRate (v : Word) (h : s.mode = .idle) : InstrMove s (.wrSampleRate v) (s.setSampleRate v)
  | symbolRate (v : Word) (h : s.mode = .idle) : InstrMove s (.wrSymbolRate v) (s.setSymbolRate v)
  | begin (v : Word) (h : s.mode = .idle) (hc : s.configurationCheck = .none) : InstrMove s (.start v) s.beginRun
  | raise (v : Word) (h : s.mode = .idle) (hc : s.configurationCheck ≠ .none) :
      InstrMove s (.start v) (s.raiseConfigurationError s.configurationCheck)
  | stopLater (v : Word) (h : s.mode = .run) (hb : s.busy = true) : InstrMove s (.stop v) s.requestStop
  | stopNow (v : Word) (h : s.mode = .run) (hb : s.busy = false) : InstrMove s (.stop v) s.endRun
  | reset (v : Word) : InstrMove s (.srst v) s.resetBlock

/-- Accepting the word of a command is one of its moves. -/
theorem InstrMove.accept (i : Instr) (w : Cmd) (he : encode i = .sym w) (s : State) :
    InstrMove s i (s.acceptCommand w) := by
  cases h : s.symReady
  · rw [State.acceptCommand_wait w h]; exact .nothing
  · rw [State.acceptCommand_ready w h]; exact .take w he h

/-- What one instruction can do. -/
theorem exec_move {i : Instr} (h : exec i s = .next t) : InstrMove s i t := by
  cases i with
  | sym0 => cases h; exact .accept _ _ rfl s
  | sym1 => cases h; exact .accept _ _ rfl s
  | sym2 => cases h; exact .accept _ _ rfl s
  | sym3 => cases h; exact .accept _ _ rfl s
  | blank low => cases h; exact .accept _ _ rfl s
  | rd reg data => cases h; exact .read reg data
  | wrSampleRate v =>
    cases h
    split
    · next hm => exact .sampleRate v hm
    · exact .nothing
  | wrSymbolRate v =>
    cases h
    split
    · next hm => exact .symbolRate v hm
    · exact .nothing
  | srst v => cases h; exact .reset v
  | stop v =>
    cases h
    split
    · next hm =>
      split
      · next hb => exact .stopLater v hm hb
      · next hb => exact .stopNow v hm (Bool.eq_false_iff.mpr hb)
    · exact .nothing
  | start v =>
    cases h
    obtain ⟨-, e⟩ | ⟨hm, hc, e⟩ | ⟨hm, hc, e⟩ := s.startRun_cases <;> rw [e]
    · exact .nothing
    · exact .begin v hm hc
    · exact .raise v hm hc
  | ctrlNop v => cases h; exact .nothing
  | wrRoStatus v => cases h; exact .nothing
  | wrRoSps v => cases h; exact .nothing
  | wrRoCause v => cases h; exact .nothing
  | wrRsvd reg v => cases h; exact .nothing

/-! ### Steps -/

/-- Every move an event can make in state `u`. A step first takes the event off the agenda, so there `u` is the state
with the rest of the agenda. -/
inductive EventMove (u : State) : Event → State → Prop where
  | nothing {e : Event} : EventMove u e u
  | reset : EventMove u .reset u.resetBlock
  | host (op : HostOp) {v : State} (h : InstrMove u (decodeHost op) v) : EventMove u (.host op) v
  | bus (a : BusAccess) (op : HostOp) {v : State} (hb : busToHost a = .ok op)
      (h : InstrMove u (decodeHost op) v) : EventMove u (.bus a) v
  | emitLast (h : u.busy = true) (hl : u.nidx.toNat + 1 = u.sps.toNat) :
      EventMove u .sinkReady (u.pushSample (u.nextSample Config.hardware)).finishSymbol
  | emitMore (h : u.busy = true) (hl : u.nidx.toNat + 1 ≠ u.sps.toNat) :
      EventMove u .sinkReady
        ((u.pushSample (u.nextSample Config.hardware)).advanceSample Config.hardware.carrierMult)
  | take (w : Cmd) (ws : List Cmd) (hs : u.source = w :: ws) (h : u.symReady = true) :
      EventMove u .sourceOffers ((u.setSource ws).takeWord w)
  | source (ws : List Cmd) : EventMove u (.sourceChanges ws) (u.setSource ws)

/-- No bit of a command word is lost. -/
theorem encode_decodeSymbol (w : Cmd) : encode (decodeSymbol w) = .sym w := by
  revert w
  decide

/-- A command word's meaning is to accept the word it was decoded from. -/
theorem exec_decodeSymbol (w : Cmd) (s : State) : exec (decodeSymbol w) s = .next (s.acceptCommand w) := by
  have e := encode_decodeSymbol w
  revert e
  cases hi : decodeSymbol w <;> intro e <;> first | (cases e; rfl) | (simp [encode] at e)

/-- What one event can do. -/
theorem perform_move {e : Event} (h : perform e s = .next t) : EventMove s e t := by
  cases e with
  | reset => cases h; exact .reset
  | host op => exact .host op (exec_move h)
  | bus a =>
    simp only [perform] at h
    split at h
    · next op hb => exact .bus a op hb (exec_move h)
    · cases h
  | sinkReady =>
    cases h
    cases hb : s.busy
    · rw [State.emitSample_wait _ hb]; exact .nothing
    · by_cases hl : s.nidx.toNat + 1 = s.sps.toNat
      · rw [State.emitSample_last _ hb hl]; exact .emitLast hb hl
      · rw [State.emitSample_more _ hb hl]; exact .emitMore hb hl
  | sourceOffers =>
    simp only [perform] at h
    split at h
    · cases h; exact .nothing
    · next w ws hs =>
      split at h
      · next hr =>
        rw [exec_decodeSymbol] at h
        cases h
        rw [State.acceptCommand_ready w (by simpa using hr)]
        exact .take w ws hs hr
      · cases h; exact .nothing
  | sourceChanges ws => cases h; exact .source ws

/-- What one step can do: nothing when nothing is to happen, else one move of the next event. -/
theorem step_move (h : step s = .next t) :
    (s.agenda = [] ∧ t = s) ∨ ∃ e rest, s.agenda = e :: rest ∧ EventMove (s.setAgenda rest) e t := by
  unfold step nextStep at h
  split at h
  · next ha => cases h; exact .inl ⟨ha, rfl⟩
  · next e rest ha => exact .inr ⟨e, rest, ha, perform_move h⟩

theorem step_agenda {e : Event} {rest : List Event} (h : s.agenda = e :: rest) :
    step s = perform e (s.setAgenda rest) := by
  simp [step, nextStep, h]

end Sys2Proof.Machine
end

