-- ==== Sys2Proof/Tests/Slice0.lean ====
section
/-! SUPPORT. Tests whose expected results are the spec's own tables and vectors (95_test_vectors.md V1 to V67, 30_encoding.md
R54, R55), a smoke test of the well-formedness check, and for every statement with hypotheses a concrete state that meets
them, clause by clause. -/

namespace Sys2Proof.Tests

open Sys2Proof Sys2Proof.Machine Host

/-! ### Well-formedness: an ill-formed term for each check -/

theorem test_illformed_srst : ¬(Instr.srst 0b011#32).WellFormed := by decide
theorem test_illformed_stop_srst_bit : ¬(Instr.stop 0b110#32).WellFormed := by decide
theorem test_illformed_stop_no_stop_bit : ¬(Instr.stop 0b001#32).WellFormed := by decide
theorem test_illformed_start_stop_bit : ¬(Instr.start 0b011#32).WellFormed := by decide
theorem test_illformed_start_srst_bit : ¬(Instr.start 0b101#32).WellFormed := by decide
theorem test_illformed_start_no_bit : ¬(Instr.start 0b000#32).WellFormed := by decide
theorem test_illformed_ctrlNop : ¬(Instr.ctrlNop 0b100#32).WellFormed := by decide
theorem test_illformed_ctrlNop_stop : ¬(Instr.ctrlNop 0b010#32).WellFormed := by decide
theorem test_illformed_ctrlNop_start : ¬(Instr.ctrlNop 0b001#32).WellFormed := by decide
theorem test_illformed_wrRsvd : ¬(Instr.wrRsvd 5#3 0#32).WellFormed := by decide
theorem test_illformed_wrRsvd_ctrl : ¬(Instr.wrRsvd 2#3 0#32).WellFormed := by decide
theorem test_wellformed : (Instr.stop 0b011#32).WellFormed ∧ (Instr.wrRsvd 7#3 1#32).WellFormed := by decide

/-! ### Decoding: words written out bit by bit from R54 and R55 -/

/-- R54: `3'b010` is `SYM2`. -/
theorem test_decode_sym2 : decode (.sym 0b010#3) = .sym2 := by decide
/-- R54: `3'b110` is a `BLANK` alias. -/
theorem test_decode_blank_alias : decode (.sym 0b110#3) = .blank 0b10#2 := by decide
/-- R55: `0 101 xxx` reads `CAUSE`. -/
theorem test_decode_rd : decodeTableWord 7 0b0101000 = some (.rd 5#3 0#32) := by decide
/-- P3: `H = 1 000 100`, `wdata = 0x0000AC44`. -/
theorem test_decode_wr_sample_rate :
    decode (.host { we := true, addr := 0b000#3, wdata := 0x0000AC44#32 }) = .wrSampleRate 44100#32 := by decide
/-- R55: `1 001 xxx`. -/
theorem test_decode_wr_symbol_rate : decodeTableWord 8 0b1001000 = some (.wrSymbolRate 0#32) := by decide
/-- R55: `1 010 1xx`, with all three bits set (V21). -/
theorem test_decode_srst : decodeTableWord 8 0b1010111 = some (.srst 7#32) := by decide
/-- R55: `1 010 01x` (V22). -/
theorem test_decode_stop : decodeTableWord 8 0b1010011 = some (.stop 3#32) := by decide
/-- R55: `1 010 001`. -/
theorem test_decode_start : decodeTableWord 8 0b1010001 = some (.start 1#32) := by decide
/-- R55: `1 010 000`, upper bits ignored (V20). -/
theorem test_decode_ctrl_nop :
    decode (.host { we := true, addr := 0b010#3, wdata := 0xFFFFFFF8#32 }) = .ctrlNop 0xFFFFFFF8#32 := by decide
/-- R55: `1 011 xxx`, `1 100 xxx`, `1 101 xxx`. -/
theorem test_decode_wr_ro : decodeTableWord 8 0b1011000 = some (.wrRoStatus 0#32) ∧
    decodeTableWord 8 0b1100000 = some (.wrRoSps 0#32) ∧ decodeTableWord 8 0b1101000 = some (.wrRoCause 0#32) := by
  decide
/-- R55: `1 11x xxx`. -/
theorem test_decode_wr_rsvd : decodeTableWord 8 0b1110000 = some (.wrRsvd 6#3 0#32) ∧
    decodeTableWord 8 0b1111000 = some (.wrRsvd 7#3 0#32) := by decide
/-- The format follows the width the table gives; beyond it there is no word. -/
theorem test_decode_width : decodeTableWord 3 0 = some .sym0 ∧ decodeTableWord 7 0 = some (.rd 0#3 0#32) ∧
    decodeTableWord 3 8 = none ∧ decodeTableWord 8 128 = none := by decide

/-! ### The quantised sine: section 2 and 3.5 of 95_test_vectors.md -/

/-- The table for `D = 12`. -/
theorem test_qsin_12 : (List.range 12).map (fun t => qsin 32767 t 12) =
    [0, 16384, 28377, 32767, 28377, 16384, 0, -16384, -28377, -32767, -28377, -16384] := by decide +kernel
/-- The table for `D = 32`, first half. -/
theorem test_qsin_32 : (List.range 16).map (fun t => qsin 32767 t 32) =
    [0, 6393, 12539, 18204, 23170, 27245, 30273, 32137, 32767, 32137, 30273, 27245, 23170, 18204, 12539, 6393] := by
  decide +kernel
/-- The table for `D = 48`, first quarter. -/
theorem test_qsin_48 : (List.range 13).map (fun t => qsin 32767 t 48) =
    [0, 4277, 8481, 12539, 16384, 19947, 23170, 25996, 28377, 30273, 31650, 32487, 32767] := by decide +kernel
/-- The table for `D = 64`, first quarter. -/
theorem test_qsin_64 : (List.range 17).map (fun t => qsin 32767 t 64) =
    [0, 3212, 6393, 9512, 12539, 15446, 18204, 20787, 23170, 25329, 27245, 28898, 30273, 31356, 32137, 32609,
      32767] := by decide +kernel
/-- V60: the fraction alone counts. -/
theorem test_qsin_fraction : qsin 32767 1 16 = 12539 ∧ qsin 32767 3 48 = 12539 := by decide +kernel
/-- R78 (f): 411760 is the last `D` at which the first sample off zero is not 0. -/
theorem test_qsin_zero_bound : qsin 32767 1 411760 = 1 ∧ qsin 32767 1 411764 = 0 := by decide +kernel

/-! ### Runs of the commands: 3.3, 3.4 and 3.8 -/

/-- V26. -/
theorem test_run_sym0 : runOf Config.hardware 8 0b000#3 =
    [0x0000#16, 0x5A82#16, 0x7FFF#16, 0x5A82#16, 0x0000#16, 0xA57E#16, 0x8001#16, 0xA57E#16] := by decide +kernel
/-- V27. -/
theorem test_run_sym1 : runOf Config.hardware 8 0b001#3 =
    [0x7FFF#16, 0x5A82#16, 0x0000#16, 0xA57E#16, 0x8001#16, 0xA57E#16, 0x0000#16, 0x5A82#16] := by decide +kernel
/-- V28. -/
theorem test_run_sym2 : runOf Config.hardware 8 0b010#3 =
    [0x0000#16, 0xA57E#16, 0x8001#16, 0xA57E#16, 0x0000#16, 0x5A82#16, 0x7FFF#16, 0x5A82#16] := by decide +kernel
/-- V29. -/
theorem test_run_sym3 : runOf Config.hardware 8 0b011#3 =
    [0x8001#16, 0xA57E#16, 0x0000#16, 0x5A82#16, 0x7FFF#16, 0x5A82#16, 0x0000#16, 0xA57E#16] := by decide +kernel
/-- V31. -/
theorem test_run_blank_alias : runOf Config.hardware 8 0b111#3 = List.replicate 8 0x0000#16 := by decide +kernel
/-- V45 and V46, five samples a symbol. -/
theorem test_run_five : (runOf Config.hardware 5 0b000#3).map BitVec.toInt = [0, 31163, 19260, -19260, -31163] ∧
    (runOf Config.hardware 5 0b001#3).map BitVec.toInt = [32767, 10126, -26509, -26509, 10126] := by decide +kernel
/-- V48, six samples a symbol, four ties. -/
theorem test_run_six : (runOf Config.hardware 6 0b001#3).map BitVec.toInt =
    [32767, 16384, -16384, -32767, -16384, 16384] := by decide +kernel
/-- 3.8, `M = 3`. -/
theorem test_run_m3 : (runOf { carrierMult := 3, amplitude := 32767 } 8 0b000#3).map BitVec.toInt =
    [0, 23170, -32767, 23170, 0, -23170, 32767, -23170] := by decide +kernel

/-! ### States -/

/-- Reset with the two rates written. -/
def withRates (sr yr : Word) : State := { State.reset with sampleRate := sr, symbolRate := yr }

/-- The source's configuration, running, between symbols (V1). -/
def ready : State := { withRates 48000#32 6000#32 with mode := .run, sps := 8#32 }

/-- `SYM0` in progress, `n` samples pushed (3.7). -/
def inSymbol (n : Nat) : State :=
  { ready with
    busy := true, nidx := BitVec.ofNat 32 n, phase := BitVec.ofNat 32 n, taken := [0b000#3],
    out := (runOf Config.hardware 8 0b000#3).take n }

/-- The faulted configuration of V2. -/
def faulted : State := { withRates 44100#32 6000#32 with mode := .fault, cause := .ratioNotIntegral }

/-! ### One step: 3.1, 3.2, 3.6, 3.7 -/

/-- V1, and V5 at the smallest ratio. -/
theorem test_start_runs : exec (.start 1#32) (withRates 48000#32 6000#32) = .next ready ∧
    exec (.start 1#32) (withRates 48000#32 48000#32) =
      .next { withRates 48000#32 48000#32 with mode := .run, sps := 1#32 } := ⟨rfl, rfl⟩
/-- V2, V4, V6, V7, V8. -/
theorem test_start_raises :
    exec (.start 1#32) (withRates 44100#32 6000#32) = .next faulted ∧
    (withRates 6000#32 48000#32).configurationCheck = .ratioNotIntegral ∧
    (withRates 48000#32 0#32).configurationCheck = .symbolRateZero ∧
    (withRates 0#32 6000#32).configurationCheck = .sampleRateZero ∧
    (withRates 0#32 0#32).configurationCheck = .symbolRateZero := ⟨rfl, by decide, by decide, by decide, by decide⟩
/-- V9: the largest `SPS`. -/
theorem test_start_largest :
    ((withRates 4294967295#32 1#32).startRun.sps, (withRates 4294967295#32 1#32).startRun.mode) =
      (4294967295#32, .run) := by decide
/-- V25: `RD STATUS` in a symbol. -/
theorem test_rd_status : exec (.rd 3#3 0#32) (inSymbol 2) = .next { inSymbol 2 with reads := [0x00000005#32] } := rfl
/-- R31, R100: the cause codes 0, 1 and 2, each under its own name. -/
theorem test_cause_codes : State.reset.cfgRead 5#3 = 0#32 ∧
    (withRates 48000#32 0#32).startRun.cfgRead 5#3 = 1#32 ∧ (withRates 0#32 6000#32).startRun.cfgRead 5#3 = 2#32 :=
  ⟨rfl, rfl, rfl⟩

/-- V15, first half: `RD CAUSE` in `FAULT`. -/
theorem test_rd_cause : exec (.rd 5#3 0#32) faulted = .next { faulted with reads := [0x00000003#32] } := rfl
/-- V12. -/
theorem test_wr_sample_rate_idle : exec (.wrSampleRate 48000#32) State.reset =
    .next { State.reset with sampleRate := 0x0000BB80#32 } := rfl
/-- V13. -/
theorem test_wr_sample_rate_run : exec (.wrSampleRate 44100#32) ready = .next ready := rfl
/-- V14. -/
theorem test_wr_symbol_rate_fault : exec (.wrSymbolRate 4410#32) faulted = .next faulted := rfl
/-- R62's example. -/
theorem test_wr_symbol_rate_idle : exec (.wrSymbolRate 6000#32) State.reset =
    .next { State.reset with symbolRate := 0x00001770#32 } := rfl
/-- V16, V19. -/
theorem test_start_ignored : exec (.start 1#32) faulted = .next faulted ∧ exec (.start 1#32) ready = .next ready :=
  ⟨rfl, rfl⟩
/-- V17, V62, V65. -/
theorem test_stop : exec (.stop 2#32) faulted = .next faulted ∧
    (exec (.stop 2#32) (inSymbol 2) = .next { inSymbol 2 with stopPending := true }) ∧
    exec (.stop 2#32) ready = .next { ready with mode := .idle } := ⟨rfl, rfl, rfl⟩
/-- V62: `STATUS = 0xD` with a stop pending. -/
theorem test_status_stop_pending : ({ inSymbol 2 with stopPending := true } : State).statusWord = 0xD#32 := by decide
/-- V18. -/
theorem test_srst_clears_fault : exec (.srst 4#32) faulted = .next State.reset := rfl
/-- V64: the cut symbol stays in `OUT`. -/
theorem test_srst_in_symbol : (inSymbol 2).resetBlock.out = [0x0000#16, 0x5A82#16] ∧
    (inSymbol 2).resetBlock.statusWord = 0#32 := by decide +kernel
/-- V20, V15, V23: ignored writes. -/
theorem test_ignored_writes : exec (.ctrlNop 0xFFFFFFF8#32) ready = .next ready ∧
    exec (.wrRoCause 0#32) faulted = .next faulted ∧ exec (.wrRoSps 7#32) ready = .next ready ∧
    exec (.wrRoStatus 7#32) ready = .next ready ∧ exec (.wrRsvd 7#3 0x12345678#32) ready = .next ready :=
  ⟨rfl, rfl, rfl, rfl, rfl⟩
/-- 3.6, the accept row, for `SYM1`. -/
theorem test_accept_sym1 : exec .sym1 ready = .next { ready with cur := 0b001#3, busy := true, taken := [0b001#3] } := rfl
/-- R88 for the other command words. -/
theorem test_accept_others : exec .sym0 ready = .next { ready with cur := 0b000#3, busy := true, taken := [0b000#3] } ∧
    exec .sym2 ready = .next { ready with cur := 0b010#3, busy := true, taken := [0b010#3] } ∧
    exec .sym3 ready = .next { ready with cur := 0b011#3, busy := true, taken := [0b011#3] } ∧
    exec (.blank 0b11#2) ready = .next { ready with cur := 0b111#3, busy := true, taken := [0b111#3] } :=
  ⟨rfl, rfl, rfl, rfl⟩
/-- P3: a word offered in `FAULT` is held. -/
theorem test_offer_held : step { faulted with source := [0b001#3], agenda := [.sourceOffers] } =
    .next { faulted with source := [0b001#3] } := rfl
/-- V62: the third sample of `SYM0` is `7FFF`, and index and phase advance. -/
theorem test_emit_more : ((inSymbol 2).emitSample Config.hardware).out.getLast? = some 0x7FFF#16 ∧
    ((inSymbol 2).emitSample Config.hardware).nidx = 3#32 ∧
    ((inSymbol 2).emitSample Config.hardware).phase = 3#32 := by decide +kernel
/-- V62: the last sample with a stop pending. -/
theorem test_emit_last : (({ inSymbol 7 with stopPending := true } : State).emitSample Config.hardware).statusWord = 0#32 ∧
    ((inSymbol 7).emitSample Config.hardware).statusWord = 1#32 ∧
    ((inSymbol 7).emitSample Config.hardware).out = runOf Config.hardware 8 0b000#3 := by decide +kernel
/-- R58: `BYTE 0x1B`. -/
theorem test_byte : byteWords 0x1B#8 = [0b000#3, 0b001#3, 0b010#3, 0b011#3] := by decide
/-- R40: the word at `CFG_BASE + 12` is `STATUS`; a halfword there is refused. -/
theorem test_bus : busToHost { write := false, addr := Config.cfgBase + 12, size := 4, data := 0#32 } =
      .ok { we := false, addr := 3#3, wdata := 0#32 } ∧
    busToHost { write := false, addr := Config.cfgBase + 12, size := 2, data := 0#32 } =
      .error (.busAccessSize 2) := by
  have h : (Config.cfgBase + 12) % 4 = 0 := by unfold Config.cfgBase; omega
  simp [busToHost, h]
/-- R40: just past the eight registers, and inside a word. -/
theorem test_bus_bounds : busToHost { write := true, addr := Config.cfgBase + 32, size := 4, data := 0#32 } =
      .error (.busAccessOutside (Config.cfgBase + 32)) ∧
    busToHost { write := true, addr := Config.cfgBase + 30, size := 4, data := 0#32 } =
      .error (.busAccessMisaligned (Config.cfgBase + 30)) := by
  have h : (Config.cfgBase + 32) % 4 = 0 := by unfold Config.cfgBase; omega
  have h2 : ¬(Config.cfgBase + 30) % 4 = 0 := by unfold Config.cfgBase; omega
  simp [busToHost, h, h2]
/-- Each opcode-table word, placed after reset, is run by the very next step. -/
theorem test_placed_word : step (State.reset.withFetchWord 8 0b001) =
      .next { ready with cur := 0b001#3, busy := true, taken := [0b001#3] } ∧
    step (State.reset.withFetchWord 8 0b1010001) =
      .next { State.reset with mode := .fault, cause := .symbolRateZero } := ⟨rfl, rfl⟩

/-! ### Witnesses: every hypothesis can be met -/

theorem witness_registers_ready : ready.RegistersInv Config.hardware := by constructor <;> decide
theorem witness_registers_in_symbol : (inSymbol 2).RegistersInv Config.hardware := by constructor <;> decide
theorem witness_registers_last_sample : (inSymbol 7).RegistersInv Config.hardware := by constructor <;> decide
theorem witness_registers_stop_pending :
    ({ inSymbol 7 with stopPending := true } : State).RegistersInv Config.hardware := by constructor <;> decide
theorem witness_registers_fault : faulted.RegistersInv Config.hardware := by constructor <;> decide
theorem witness_registers_idle : (withRates 48000#32 6000#32).RegistersInv Config.hardware := by
  constructor <;> decide

theorem witness_output_ready : ready.OutputInv Config.hardware := by
  constructor <;> simp [ready, withRates, State.reset, modulate]

theorem witness_output_in_symbol : (inSymbol 2).OutputInv Config.hardware :=
  ⟨Nat.zero_le _, by simp [inSymbol], fun _ => ⟨[], rfl, rfl⟩⟩

/-- For the statements about `Config` and sample counts: this hardware, and the smallest ratio. -/
theorem witness_parameters : Config.hardware.Admissible ∧ Config.hardware.carrierMult = 1 ∧ 1 ≤ Config.hardware.amplitude ∧
    Config.hardware.amplitude ≤ 32767 ∧ 1 ≤ 1 ∧ 4 * 102940 ≤ 411760 := by decide

/-- For `DecodeEncodeRoundTrip`: one well-formed instruction of each checked form. -/
theorem witness_wellFormed : (Instr.srst 4#32).WellFormed ∧ (Instr.stop 2#32).WellFormed ∧ (Instr.start 1#32).WellFormed ∧
    (Instr.ctrlNop 8#32).WellFormed ∧ (Instr.wrRsvd 6#3 0#32).WellFormed := by decide

/-- For `StepRunsDecodedInstruction` and `StepPerformsOtherEvents`: an agenda for each clause. -/
theorem witness_step_clauses :
    ({ ready with agenda := [.host startOp] } : State).agenda = .host startOp :: [] ∧
    ({ ready with agenda := [.sourceOffers], source := [0b101#3] } : State).symReady = true ∧
    ({ inSymbol 2 with agenda := [.sourceOffers], source := [0b101#3] } : State).symReady = false ∧
    ready.agenda = [] ∧ ready.source = [] := by decide

/-- For the bus clauses: an access that passes and one that does not. -/
theorem witness_bus_clauses : (∃ a op, busToHost a = .ok op) ∧ (∃ a r, busToHost a = .error r) :=
  ⟨⟨_, _, test_bus.1⟩, ⟨_, _, test_bus.2⟩⟩

/-- For the clauses of `START`, `STOP`, the rate writes and `FAULT`. -/
theorem witness_mode_clauses : (withRates 48000#32 6000#32).mode = .idle ∧ ready.mode = .run ∧ ready.busy = false ∧
    (inSymbol 2).mode = .run ∧ (inSymbol 2).busy = true ∧ faulted.mode = .fault ∧
    48000 % 6000 = 0 ∧ 44100 % 6000 ≠ 0 := by decide

/-- For `FaultIgnoresAllButReset` and `RepeatedReadsAgree`. -/
theorem witness_fault_instruction : exec (.start 1#32) faulted = .next faulted ∧ (∀ v, Instr.start 1#32 ≠ .srst v) ∧
    exec (.rd 0#3 0#32) faulted = .next (faulted.logRead 44100#32) := ⟨rfl, by simp, rfl⟩

/-- For `EmitStepPushesOneSample`: not busy, the last sample, any other sample. -/
theorem witness_emit_clauses : ready.busy = false ∧
    ((inSymbol 7).nidx.toNat : Int) = ((inSymbol 7).sps.toNat : Int) - 1 ∧
    ((inSymbol 6).nidx.toNat : Int) ≠ ((inSymbol 6).sps.toNat : Int) - 1 := by decide

/-- For `CommandPushesItsRun`: a word of each command. -/
theorem witness_command : encode .sym0 = .sym 0b000#3 ∧ encode .sym1 = .sym 0b001#3 ∧ encode .sym2 = .sym 0b010#3 ∧
    encode .sym3 = .sym 0b011#3 ∧ encode (.blank 0b01#2) = .sym 0b101#3 ∧ ready.stopPending = false ∧
    1 ≤ ready.sps.toNat := by decide

/-- For `QsinPeakOnlyAtQuarterTurn`: the hypothesis is met at the peak, and beside it. -/
theorem witness_peak : qsin 32767 8 32 = 32767 ∧ qsin 32767 286 1140 = 32767 := by decide +kernel

/-- For `PlacedWordRunsNext`. -/
theorem witness_placed : decodeTableWord 7 0b1010001 = some (.start 1#32) ∧ (7 : Nat) < 8 ∧ 127 < 128 := by decide

/-- For `OutputDependsOnWordsTakenOnly`: two runs that differ in rates, earlier output and reads. -/
theorem witness_two_runs : ∃ s t : State, s.OutputInv Config.hardware ∧ t.OutputInv Config.hardware ∧ s.sps = t.sps ∧
    s.taken = t.taken ∧ s.busy = t.busy ∧ s.nidx = t.nidx ∧ s.out ≠ t.out :=
  ⟨ready, { ready with out := [1#16], runBase := 1, reads := [5#32] }, witness_output_ready,
    by constructor <;> simp [ready, withRates, State.reset, modulate], rfl, rfl, rfl, rfl, by decide⟩

/-- For `StepKeepsRegisterRelations`, `StepKeepsOutputAccount` and `StepKeepsSampleRange`: a step from a state that meets
the invariants. -/
theorem witness_step_keeps : ready.NoFullNegative ∧ step ready = .next ready := ⟨by simp [State.NoFullNegative, ready, withRates, State.reset], rfl⟩

/-- For `StreamPushesModulate`: one word, its events. -/
theorem witness_stream : ∃ s : State, s.RegistersInv Config.hardware ∧ s.mode = .run ∧ s.busy = false ∧
    s.source = [0b001#3] ++ [0b010#3] ∧ s.agenda = streamEvents s.sps.toNat 1 ++ [.reset] :=
  ⟨{ ready with source := [0b001#3, 0b010#3], agenda := streamEvents 8 1 ++ [.reset] }, by constructor <;> decide, rfl, rfl,
    rfl, rfl⟩

/-- For `ModeChangesOnlyByTable` and `ConfigurationOfRunIsFixed`: steps that change the mode, one for each row. -/
theorem witness_mode_changes :
    step { faulted with agenda := [.reset] } = .next State.reset ∧
    step { withRates 48000#32 6000#32 with agenda := [.host startOp] } = .next ready ∧
    step { withRates 44100#32 6000#32 with agenda := [.host startOp] } = .next faulted ∧
    step { ready with agenda := [.host stopOp] } = .next { ready with mode := .idle } := ⟨rfl, rfl, rfl, rfl⟩

/-- The last row: the end of a symbol with a stop pending. -/
theorem witness_mode_change_at_symbol_end : ∃ t, step { inSymbol 7 with stopPending := true, agenda := [.sinkReady] } =
    .next t ∧ t.mode = .idle :=
  ⟨State.emitSample Config.hardware { inSymbol 7 with stopPending := true }, rfl, by
    rw [State.emitSample_last _ (by rfl) (by decide)]
    rfl⟩

/-- For `FaultIsSticky`, `FailedStartPushesNothing` and `PendingStopCannotBeCancelled`: steps that are no reset. -/
theorem witness_no_reset : Event.isReset (.host startOp) = false ∧ Event.isReset .sinkReady = false ∧
    step { faulted with agenda := [.host startOp] } = .next faulted ∧
    step { inSymbol 2 with stopPending := true, agenda := [.host stopOp] } =
      .next { inSymbol 2 with stopPending := true } := ⟨by decide, by decide, rfl, rfl⟩

/-- For `OutputOnlyGrowsByEmit`: a step that pushes. -/
theorem witness_output_grows : ∃ t, step { inSymbol 2 with agenda := [.sinkReady] } = .next t :=
  ⟨State.emitSample Config.hardware (inSymbol 2), rfl⟩

/-- For the encoding clauses of the host operations' statements: write data that meet each, the unused upper bits set. -/
theorem witness_ctrl_bits :
    (∀ b ∈ [(2, false), (1, false), (0, true)], (0xFFFFFFF9#32).getLsbD b.1 = b.2) ∧
    (∀ b ∈ [(2, false), (1, true)], (0xFFFFFFFB#32).getLsbD b.1 = b.2) ∧ (0xFFFFFFFF#32).getLsbD 2 = true ∧
    (0xFFFFFFF8#32).extractLsb' 0 3 = 0b000#3 ∧ (hostRead 3#3 5#32).we = false := by decide

/-- For `EdgeOrderHostEmitAccept`: the operations of its clauses, and a last sample with a word waiting. -/
theorem witness_edge : decodeHost stopOp = .stop 2#32 ∧ decodeHost srstOp = .srst 4#32 ∧
    (inSymbol 7).nidx.toNat + 1 = (inSymbol 7).sps.toNat ∧ (inSymbol 7).stopPending = false ∧
    edgeEvents { rst := true, cfg := some startOp, pcmReady := true, symValid := true } = [.reset] := by decide

/-- For the clauses of `EdgeOrderHostEmitAccept` with a host operation and an emit on one edge. -/
theorem witness_edge_host_and_emit :
    edgeEvents { rst := false, cfg := some stopOp, pcmReady := true, symValid := true } =
      [.host stopOp, .sinkReady, .sourceOffers] ∧
    (inSymbol 7).mode = .run ∧ (inSymbol 7).busy = true ∧
    step { inSymbol 7 with agenda := [.host srstOp, .sinkReady] } =
      .next { State.reset with out := (inSymbol 7).out, runBase := (inSymbol 7).out.length, agenda := [.sinkReady] } :=
  ⟨by decide, rfl, rfl, rfl⟩

/-- For `QsinPeakOnlyAtQuarterTurnUpTo1136`: the largest ratio of the statement, beside the peak and at it. -/
theorem witness_peak_1136 : 4 * 284 ≤ 1136 ∧ qsin 32767 283 1136 = 32766 ∧ qsin 32767 284 1136 = 32767 := by
  decide +kernel

/-- For `RunEndsWithModulateOfItsProgram`: a stopped block with an old word in `CUR` and old output begins a run, or fails
to. R113: `CUR` is "its reset value if `L = 0`", and the failed run has "ended at once with `OUT` empty". -/
theorem witness_second_run :
    step { ready with mode := .idle, cur := 0b011#3, taken := [0b011#3], out := [1#16], agenda := [.host startOp] } =
      .next { ready with out := [1#16], runBase := 1 } ∧
    step { withRates 44100#32 6000#32 with out := [1#16], taken := [0b011#3], agenda := [.host startOp] } =
      .next { faulted with out := [1#16], runBase := 1 } ∧
    decodeHost startOp = .start 1#32 ∧ 48000 / 6000 = 8 := ⟨rfl, rfl, by decide, by decide⟩

/-- For `StartUpSequence`: both orders, and rates of both kinds. -/
theorem witness_start_up :
    ({ State.reset with agenda := [.reset, .host (hostWrite 0#3 48000#32), .host (hostWrite 1#3 6000#32),
      .host startOp] } : State).agenda ≠ [] ∧ 48000 % 6000 = 0 ∧ ¬(48000 % 7000 = 0) := by decide

end Sys2Proof.Tests
end

section
/-! What `perform` answers for the events that bring an instruction, and the statement that a step runs it (family
00_scope.md). -/

namespace Sys2Proof.Machine

variable {s : State}

/-! ### Events that bring an instruction -/

/-- R41: a host operation runs its decoded instruction. -/
theorem perform_host (op : HostOp) : perform (.host op) s = exec (decode (.host op)) s := rfl

/-- R40: on the bus, an access the bridge lets through is the host operation it stands for. -/
theorem perform_bus_ok {a : BusAccess} {op : HostOp} (h : busToHost a = .ok op) :
    perform (.bus a) s = perform (.host op) s := by
  simp [perform, h]

/-- R41, R88: a ready block takes the first word of the source's list and runs its decoded instruction. -/
theorem perform_sourceOffers_ready {w : Cmd} {ws : List Cmd} (hs : s.source = w :: ws) (hr : s.symReady = true) :
    perform .sourceOffers s = exec (decode (.sym w)) (s.setSource ws) := by
  simp [perform, hs, hr, decode]

/-- Settles O7: a step performs the first event of the agenda, and each of the three events runs its decoded
instruction. -/
theorem stepRunsDecodedInstruction : Obligations.StepRunsDecodedInstruction := by
  refine ⟨fun s op rest ha => ?host, fun s a op rest ha hb => ?bus, fun s w ws rest ha hs hr => ?offer⟩
  case host =>
    calc step s = perform (.host op) (s.setAgenda rest) := step_agenda ha
      _ = exec (decode (.host op)) (s.setAgenda rest) := perform_host op
  case bus =>
    calc step s = perform (.bus a) (s.setAgenda rest) := step_agenda ha
      _ = perform (.host op) (s.setAgenda rest) := perform_bus_ok hb
      _ = exec (decode (.host op)) (s.setAgenda rest) := perform_host op
  case offer =>
    calc step s = perform .sourceOffers (s.setAgenda rest) := step_agenda ha
      _ = exec (decode (.sym w)) ((s.setAgenda rest).setSource ws) :=
        perform_sourceOffers_ready (by simpa using hs) (by simpa using hr)

end Sys2Proof.Machine
end

section
/-! The relations between the registers (10_state.md R36): each operation of the block keeps them under the condition on
which a move performs it, so every step does; and what they say of `STATUS`. -/

namespace Sys2Proof.Machine

variable {c : Config} {s t u : State} {i : Instr} {e : Event}

/-! ### What the relations give -/

/-- R36 (b), turned round. -/
theorem State.RegistersInv.not_busy (h : s.RegistersInv c) (hm : s.mode ≠ .run) : s.busy = false :=
  Bool.eq_false_iff.mpr fun hb => hm (h.busy_run hb)

/-- R36 (c), turned round. -/
theorem State.RegistersInv.not_stopPending (h : s.RegistersInv c) (hb : s.busy = false) : s.stopPending = false :=
  Bool.eq_false_iff.mpr fun hp => by simp [h.stop_busy hp] at hb

/-- R36 (g): outside `FAULT` there is no cause. -/
theorem State.RegistersInv.cause_eq_none (h : s.RegistersInv c) (hm : s.mode ≠ .fault) : s.cause = .none :=
  not_not.mp fun hc => hm (h.cause_fault.mp hc)

/-! ### The phase of R36 (e) -/

theorem phaseAt_zero (M N : Nat) : phaseAt M N 0 = 0 := by simp [phaseAt]

/-- R71, R72: the accumulator steps from the phase of one sample to the phase of the next. -/
theorem nextPhase_phaseAt (M N n : Nat) : nextPhase M N (phaseAt M N n) = phaseAt M N (n + 1) := by
  simp only [nextPhase, phaseAt, Nat.mod_add_mod, Nat.mul_succ]

/-- R10: the accumulator's value fits its register, as the modulus does. -/
theorem toNat_ofNat_nextPhase (M : Nat) {N : Word} (hN : 0 < N.toNat) (p : Nat) :
    (BitVec.ofNat 32 (nextPhase M N.toNat p)).toNat = nextPhase M N.toNat p := by
  have hlt : nextPhase M N.toNat p < N.toNat := Nat.mod_lt _ hN
  rw [BitVec.toNat_ofNat, Nat.mod_eq_of_lt (hlt.trans N.isLt)]

/-- R10: below the modulus the sample index counts without wrapping. -/
theorem toNat_add_one_of_lt {n N : Word} (h : n.toNat < N.toNat) : (n + 1#32).toNat = n.toNat + 1 := by
  have hN := N.isLt
  rw [BitVec.toNat_add, BitVec.toNat_ofNat]
  omega

/-! ### Each operation keeps the relations -/

/-- R107: the relations hold right after reset. -/
theorem State.reset_registersInv (c : Config) : State.reset.RegistersInv c := by
  constructor <;> simp [State.reset]

theorem State.resetBlock_registersInv (c : Config) (s : State) : s.resetBlock.RegistersInv c :=
  { State.reset_registersInv c with }

theorem State.RegistersInv.setAgenda (h : s.RegistersInv c) (es : List Event) : (s.setAgenda es).RegistersInv c :=
  { h with }

theorem State.RegistersInv.setSource (h : s.RegistersInv c) (ws : List Cmd) : (s.setSource ws).RegistersInv c :=
  { h with }

theorem State.RegistersInv.logRead (h : s.RegistersInv c) (v : Word) : (s.logRead v).RegistersInv c :=
  { h with }

theorem State.RegistersInv.pushSample (h : s.RegistersInv c) (x : Sample) : (s.pushSample x).RegistersInv c :=
  { h with }

/-- R61: in `IDLE` no relation speaks of the rates. -/
theorem State.RegistersInv.setSampleRate (h : s.RegistersInv c) (hm : s.mode = .idle) (v : Word) :
    (s.setSampleRate v).RegistersInv c :=
  { h with
    run_quotient := fun hr => by simp [hm] at hr
    run_exact := fun hr => by simp [hm] at hr }

/-- R62: in `IDLE` no relation speaks of the rates. -/
theorem State.RegistersInv.setSymbolRate (h : s.RegistersInv c) (hm : s.mode = .idle) (v : Word) :
    (s.setSymbolRate v).RegistersInv c :=
  { h with
    run_quotient := fun hr => by simp [hm] at hr
    run_exact := fun hr => by simp [hm] at hr }

/-- R64: a stop is remembered inside a symbol only. -/
theorem State.RegistersInv.requestStop (h : s.RegistersInv c) (hb : s.busy = true) : s.requestStop.RegistersInv c :=
  { h with stop_busy := fun _ => hb }

/-- R64: a stop between symbols, which leaves `RUN` with no cause. -/
theorem State.RegistersInv.endRun (h : s.RegistersInv c) (hm : s.mode = .run) (hb : s.busy = false) :
    s.endRun.RegistersInv c :=
  { h with
    busy_run := fun hb' => by simp [hb] at hb'
    run_sps := nofun
    run_quotient := nofun
    run_exact := nofun
    cause_fault := by simp [h.cause_eq_none (by simp [hm])] }

/-- R104: the exception is raised in `IDLE`, where no symbol is in progress. -/
theorem State.RegistersInv.raiseConfigurationError (h : s.RegistersInv c) (hm : s.mode = .idle) {k : Cause}
    (hk : k ≠ .none) : (s.raiseConfigurationError k).RegistersInv c :=
  { h with
    busy_run := fun hb => by simp [h.not_busy (by simp [hm])] at hb
    run_sps := nofun
    run_quotient := nofun
    run_exact := nofun
    cause_fault := by simp [hk] }

/-- R63: rates that pass the check have an exact quotient, which is at least 1. -/
theorem State.beginRun_registersInv (c : Config) (hc : s.configurationCheck = .none) : s.beginRun.RegistersInv c := by
  obtain ⟨hy, hs, hmod⟩ := State.configurationCheck_none.mp hc
  have hmod' : s.sampleRate.toNat % s.symbolRate.toNat = 0 := by simpa using congrArg BitVec.toNat hmod
  have hy' : s.symbolRate.toNat ≠ 0 := fun h0 => hy (BitVec.eq_of_toNat_eq h0)
  have hs' : s.sampleRate.toNat ≠ 0 := fun h0 => hs (BitVec.eq_of_toNat_eq h0)
  have hle : s.symbolRate.toNat ≤ s.sampleRate.toNat :=
    Nat.le_of_dvd (Nat.pos_of_ne_zero hs') (Nat.dvd_of_mod_eq_zero hmod')
  have hone : 1 ≤ s.sampleRate.toNat / s.symbolRate.toNat := Nat.div_pos hle (Nat.pos_of_ne_zero hy')
  constructor <;> simp [hmod', hone]

/-- R88: a word is taken in `RUN`, where `SPS` is at least 1, and its first sample has index and phase 0. -/
theorem State.RegistersInv.takeWord (h : s.RegistersInv c) (hr : s.symReady = true) (w : Cmd) :
    (s.takeWord w).RegistersInv c := by
  have hm : s.mode = .run := (State.symReady_iff.mp hr).1
  exact { h with
    busy_run := fun _ => hm
    stop_busy := fun _ => rfl
    busy_index := fun _ => h.run_sps hm
    busy_phase := fun _ => (phaseAt_zero _ _).symm
    rest_index := nofun
    rest_phase := nofun }

/-- R89: after the last sample the block is between symbols, in `RUN` or, if a stop was pending, in `IDLE`. -/
theorem State.RegistersInv.finishSymbol (h : s.RegistersInv c) (hb : s.busy = true) : s.finishSymbol.RegistersInv c := by
  have hm : s.mode = .run := h.busy_run hb
  have hc : s.cause = .none := h.cause_eq_none (by simp [hm])
  have hrun : s.finishSymbol.mode = .run → s.mode = .run := fun _ => hm
  exact {
    busy_run := nofun
    stop_busy := nofun
    run_sps := h.run_sps ∘ hrun
    run_quotient := h.run_quotient ∘ hrun
    run_exact := h.run_exact ∘ hrun
    busy_index := nofun
    busy_phase := nofun
    rest_index := fun _ => rfl
    rest_phase := fun _ => rfl
    cause_fault := by cases hp : s.stopPending <;> simp [hm, hc, hp] }

/-- R89, R71: after any other sample index and phase are those of the next sample. -/
theorem State.RegistersInv.advanceSample (h : s.RegistersInv c) (hb : s.busy = true)
    (hl : s.nidx.toNat + 1 ≠ s.sps.toNat) : (s.advanceSample c.carrierMult).RegistersInv c := by
  have hlt : s.nidx.toNat < s.sps.toNat := h.busy_index hb
  have hn : (s.advanceSample c.carrierMult).nidx.toNat = s.nidx.toNat + 1 := toNat_add_one_of_lt hlt
  have hp : (s.advanceSample c.carrierMult).phase.toNat = phaseAt c.carrierMult s.sps.toNat (s.nidx.toNat + 1) := by
    rw [State.advanceSample_phase, toNat_ofNat_nextPhase _ (by omega), h.busy_phase hb, nextPhase_phaseAt]
  exact { h with
    busy_index := fun _ => by rw [hn, State.advanceSample_sps]; omega
    busy_phase := fun _ => by rw [hp, hn, State.advanceSample_sps]
    rest_index := fun hb' => by simp [hb] at hb'
    rest_phase := fun hb' => by simp [hb] at hb' }

/-! ### Every step keeps the relations -/

/-- What an instruction does keeps the relations. -/
theorem InstrMove.keeps_registersInv (hm : InstrMove s i t) (h : s.RegistersInv c) : t.RegistersInv c := by
  cases hm with
  | nothing => exact h
  | take w _ hr => exact h.takeWord hr w
  | read reg _ => exact h.logRead (s.cfgRead reg)
  | sampleRate v hi => exact h.setSampleRate hi v
  | symbolRate v hi => exact h.setSymbolRate hi v
  | begin _ _ hc => exact State.beginRun_registersInv c hc
  | raise _ hi hc => exact h.raiseConfigurationError hi hc
  | stopLater _ _ hb => exact h.requestStop hb
  | stopNow _ hr hb => exact h.endRun hr hb
  | reset _ => exact State.resetBlock_registersInv c s

/-- What an event does keeps the relations, with the carrier of the machine as it is built. -/
theorem EventMove.keeps_registersInv (hm : EventMove u e t) (h : u.RegistersInv Config.hardware) :
    t.RegistersInv Config.hardware := by
  cases hm with
  | nothing => exact h
  | reset => exact State.resetBlock_registersInv _ u
  | host _ hi => exact hi.keeps_registersInv h
  | bus _ _ _ hi => exact hi.keeps_registersInv h
  | emitLast hb _ => exact (h.pushSample _).finishSymbol hb
  | emitMore hb hl => exact (h.pushSample _).advanceSample hb hl
  | take w ws _ hr => exact (h.setSource ws).takeWord hr w
  | source ws => exact h.setSource ws

/-- Settles O41: taking an event off the agenda keeps the relations, and so does every move of the event. -/
theorem stepKeepsRegisterRelations : Obligations.StepKeepsRegisterRelations := by
  intro s t h hstep
  obtain ⟨-, rfl⟩ | ⟨e, rest, -, hm⟩ := step_move hstep
  · exact h
  · exact hm.keeps_registersInv (h.setAgenda rest)

/-! ### `STATUS` and the start -/

/-- Settles O53: outside `RUN` the relations leave `BUSY` and `STOP_PENDING` 0, between symbols `STOP_PENDING`. -/
theorem statusReadValues : Obligations.StatusReadValues := by
  intro s h
  have hrest : s.mode ≠ .run → s.busy = false ∧ s.stopPending = false :=
    fun hm => ⟨h.not_busy hm, h.not_stopPending (h.not_busy hm)⟩
  refine ⟨fun hm => ?idle, fun hm => ?fault, fun hm hb => ?between, fun hm hb hp => ?symbol, fun hm hb hp => ?pending⟩
  case idle =>
    obtain ⟨hb, hp⟩ := hrest (by simp [hm])
    rw [State.statusWord, hm, hb, hp]; rfl
  case fault =>
    obtain ⟨hb, hp⟩ := hrest (by simp [hm])
    rw [State.statusWord, hm, hb, hp]; rfl
  case between => rw [State.statusWord, hm, hb, h.not_stopPending hb]; rfl
  case symbol => rw [State.statusWord, hm, hb, hp]; rfl
  case pending => rw [State.statusWord, hm, hb, hp]; rfl

/-- R97: with no word taken and nothing pushed, the account of `OUT` is empty on both sides. -/
theorem State.reset_outputInv (c : Config) : State.reset.OutputInv c where
  base_le := Nat.le_refl _
  between := fun _ => rfl
  within := nofun

/-- Settles O40: the relations by the table of R107, the account and the range because `OUT` is empty. -/
theorem resetMeetsInvariants : Obligations.ResetMeetsInvariants where
  registers := State.reset_registersInv _
  output := State.reset_outputInv _
  range := nofun

end Sys2Proof.Machine
end

section
/-! What a step can change of `OUT`, of the configuration and of a pending stop (10_state.md R34, R26, R27, R30, R23):
each read off the moves of an instruction and of an event. -/

namespace Sys2Proof.Machine

variable {s t u : State} {i : Instr} {e : Event}

/-! ### Resets and starts among the events -/

theorem Event.hostInstr_host (op : HostOp) : (Event.host op).hostInstr = some (decodeHost op) := rfl

theorem Event.hostInstr_bus {a : BusAccess} {op : HostOp} (hb : busToHost a = .ok op) :
    (Event.bus a).hostInstr = some (decodeHost op) := by
  simp [Event.hostInstr, Event.hostOp, hb, Except.toOption]

/-- An event that is no reset brings no `SRST`. -/
theorem Event.hostInstr_ne_srst (he : e.isReset = false) (hi : e.hostInstr = some i) (v : Word) : i ≠ .srst v := by
  rintro rfl
  simp [Event.isReset, hi] at he

/-- An event that is no `START` brings none. -/
theorem Event.hostInstr_ne_start (he : e.isStart = false) (hi : e.hostInstr = some i) (v : Word) : i ≠ .start v := by
  rintro rfl
  simp [Event.isStart, hi] at he

/-! ### `OUT` -/

/-- No instruction pushes a word. -/
theorem InstrMove.out_eq (hm : InstrMove s i t) : t.out = s.out := by
  cases hm <;> rfl

/-- R34, R89: only the emit step pushes, and it pushes the word the block shows. -/
theorem EventMove.out_cases (hm : EventMove u e t) :
    t.out = u.out ∨
      (e = .sinkReady ∧ u.busy = true ∧ t.out = u.out ++ [u.nextSample Config.hardware]) := by
  cases hm with
  | nothing => exact .inl rfl
  | reset => exact .inl rfl
  | host _ hi => exact .inl hi.out_eq
  | bus _ _ _ hi => exact .inl hi.out_eq
  | emitLast hb _ => exact .inr ⟨rfl, hb, rfl⟩
  | emitMore hb _ => exact .inr ⟨rfl, hb, rfl⟩
  | take w ws _ _ => exact .inl rfl
  | source ws => exact .inl rfl

/-- R38: while `BUSY = 1`, `pcm_data` shows the sample that an emit would push. -/
theorem State.pcmData_busy (c : Config) (hb : s.busy = true) : s.pcmData c = some (s.nextSample c) := by
  simp [State.pcmData, State.pcmValid, hb]

/-- Settles O50: of the moves of an event only the two of an emit change `OUT`. -/
theorem outputOnlyGrowsByEmit : Obligations.OutputOnlyGrowsByEmit := by
  intro s t hstep
  obtain ⟨-, rfl⟩ | ⟨e, rest, ha, hm⟩ := step_move hstep
  · exact .inl rfl
  · obtain ho | ⟨rfl, hb, ho⟩ := hm.out_cases
    · exact .inl ho
    · exact .inr ⟨rest, s.nextSample Config.hardware, ha, State.pcmData_busy _ hb, ho⟩

/-! ### The configuration -/

/-- The rates and `SPS` are the same in both states. -/
def State.SameConfiguration (s t : State) : Prop :=
  t.sampleRate = s.sampleRate ∧ t.symbolRate = s.symbolRate ∧ t.sps = s.sps

/-- R26, R27, R30: outside `IDLE` only `SRST` among the instructions changes the configuration. -/
theorem InstrMove.sameConfiguration (hm : InstrMove s i t) (hi : ∀ v, i ≠ .srst v) (hidle : s.mode ≠ .idle) :
    s.SameConfiguration t := by
  cases hm with
  | nothing => exact ⟨rfl, rfl, rfl⟩
  | take _ _ _ => exact ⟨rfl, rfl, rfl⟩
  | read _ _ => exact ⟨rfl, rfl, rfl⟩
  | sampleRate _ h => exact absurd h hidle
  | symbolRate _ h => exact absurd h hidle
  | begin _ h _ => exact absurd h hidle
  | raise _ h _ => exact absurd h hidle
  | stopLater _ _ _ => exact ⟨rfl, rfl, rfl⟩
  | stopNow _ _ _ => exact ⟨rfl, rfl, rfl⟩
  | reset v => exact absurd rfl (hi v)

/-- R30: only `SRST` and `START` among the instructions write `SPS`. -/
theorem InstrMove.sps_eq (hm : InstrMove s i t) (hreset : ∀ v, i ≠ .srst v) (hstart : ∀ v, i ≠ .start v) :
    t.sps = s.sps := by
  cases hm with
  | begin v _ _ => exact absurd rfl (hstart v)
  | reset v => exact absurd rfl (hreset v)
  | _ => rfl

/-- An event that is no reset leaves the configuration alone or makes the move of the instruction it brings. -/
theorem EventMove.sameConfiguration_or_instr (hm : EventMove u e t) (he : e.isReset = false) :
    u.SameConfiguration t ∨ ∃ i, e.hostInstr = some i ∧ InstrMove u i t := by
  cases hm with
  | nothing => exact .inl ⟨rfl, rfl, rfl⟩
  | reset => cases he
  | host op hi => exact .inr ⟨_, Event.hostInstr_host op, hi⟩
  | bus _ _ hb hi => exact .inr ⟨_, Event.hostInstr_bus hb, hi⟩
  | emitLast _ _ => exact .inl ⟨rfl, rfl, rfl⟩
  | emitMore _ _ => exact .inl ⟨rfl, rfl, rfl⟩
  | take _ _ _ _ => exact .inl ⟨rfl, rfl, rfl⟩
  | source _ => exact .inl ⟨rfl, rfl, rfl⟩

/-- Settles O51: the events that bring no instruction leave the configuration alone, and the instructions do by their
moves. -/
theorem configurationOfRunIsFixed : Obligations.ConfigurationOfRunIsFixed := by
  intro s t e rest ha he hstep
  rw [step_agenda ha] at hstep
  obtain ⟨hsample, hsymbol, hsps⟩ | ⟨i, hi, hm⟩ := (perform_move hstep).sameConfiguration_or_instr he
  · exact ⟨fun _ => ⟨hsample, hsymbol, hsps⟩, fun _ => hsps⟩
  · have hreset := Event.hostInstr_ne_srst he hi
    exact ⟨hm.sameConfiguration hreset, fun hs => hm.sps_eq hreset (Event.hostInstr_ne_start hs hi)⟩

/-! ### A pending stop -/

/-- In `t` a stop is pending, and no word has been taken since `s`. -/
def State.StopStaysPending (s t : State) : Prop :=
  t.stopPending = true ∧ t.taken = s.taken ∧ t.cur = s.cur

/-- R23, R64: inside a symbol only `SRST` among the instructions clears a pending stop, and no command word is taken. -/
theorem InstrMove.stopStaysPending (hm : InstrMove s i t) (hi : ∀ v, i ≠ .srst v) (hr : s.mode = .run)
    (hb : s.busy = true) (hp : s.stopPending = true) : s.StopStaysPending t := by
  have hidle : s.mode ≠ .idle := by simp [hr]
  cases hm with
  | nothing => exact ⟨hp, rfl, rfl⟩
  | take _ _ h => simp [(State.symReady_iff.mp h).2] at hb
  | read _ _ => exact ⟨hp, rfl, rfl⟩
  | sampleRate _ h => exact absurd h hidle
  | symbolRate _ h => exact absurd h hidle
  | begin _ h _ => exact absurd h hidle
  | raise _ h _ => exact absurd h hidle
  | stopLater _ _ _ => exact ⟨rfl, rfl, rfl⟩
  | stopNow _ _ h => simp [h] at hb
  | reset v => exact absurd rfl (hi v)

/-- R23, R89: an event that is no reset leaves a pending stop pending, or is the emit that ends the symbol. -/
theorem EventMove.stopPending_cases (hm : EventMove u e t) (he : e.isReset = false) (hr : u.mode = .run)
    (hb : u.busy = true) (hp : u.stopPending = true) :
    u.StopStaysPending t ∨ (e = .sinkReady ∧ u.nidx.toNat + 1 = u.sps.toNat ∧
      t = (u.pushSample (u.nextSample Config.hardware)).finishSymbol) := by
  cases hm with
  | nothing => exact .inl ⟨hp, rfl, rfl⟩
  | reset => cases he
  | host op hi =>
    exact .inl (hi.stopStaysPending (Event.hostInstr_ne_srst he (Event.hostInstr_host op)) hr hb hp)
  | bus a _ hbus hi =>
    exact .inl (hi.stopStaysPending (Event.hostInstr_ne_srst he (Event.hostInstr_bus hbus)) hr hb hp)
  | emitLast _ hl => exact .inr ⟨rfl, hl, rfl⟩
  | emitMore _ _ => exact .inl ⟨hp, rfl, rfl⟩
  | take _ _ _ h => simp [(State.symReady_iff.mp h).2] at hb
  | source _ => exact .inl ⟨hp, rfl, rfl⟩

/-- Settles O52: by the relations a pending stop means a symbol in progress in `RUN`, and the emit that ends it goes to
`IDLE`. -/
theorem pendingStopCannotBeCancelled : Obligations.PendingStopCannotBeCancelled := by
  intro s t e rest h hp ha he hstep
  rw [step_agenda ha] at hstep
  have hb : s.busy = true := h.stop_busy hp
  obtain ⟨hp', htaken, hcur⟩ | ⟨rfl, hl, rfl⟩ := (perform_move hstep).stopPending_cases he (h.busy_run hb) hb hp
  · exact ⟨.inl hp', htaken, hcur⟩
  · exact ⟨.inr ⟨rfl, hl, by simp [hp], rfl⟩, rfl, rfl⟩

end Sys2Proof.Machine
end

section
/-! What the host and the two neighbours see of the block (20_memory.md R38, R40, R45, R48, R49): repeated reads, the
output signals, the bus bridge, the moves of one clock edge, and what a run has pushed. -/

namespace Sys2Proof.Machine

variable {c : Config} {s t : State}

/-! ### Reads -/

/-- R60: no register shows what the host has read. -/
@[simp] theorem State.cfgRead_logRead (reg : BitVec 3) (v : Word) : (s.logRead v).cfgRead reg = s.cfgRead reg := rfl

/-- R60: a read keeps the register's value with the host. -/
theorem exec_rd (reg : BitVec 3) (d : Word) (s : State) : exec (.rd reg d) s = .next (s.logRead (s.cfgRead reg)) := rfl

/-- Settles O12: the first read leaves the register's value as it was, so the second keeps the same one. -/
theorem repeatedReadsAgree : Obligations.RepeatedReadsAgree := by
  intro s t u reg d e ht hu
  cases (exec_rd reg d s).symm.trans ht
  cases (exec_rd reg e _).symm.trans hu
  exact ⟨s.cfgRead reg, by simp, rfl⟩

/-! ### Output signals -/

theorem State.faultPin_iff : s.faultPin = true ↔ s.mode = .fault := by
  simp [State.faultPin]

/-- R38: between symbols `pcm_data` shows nothing. -/
theorem State.pcmData_rest (c : Config) (hb : s.busy = false) : s.pcmData c = none := by
  simp [State.pcmData, State.pcmValid, hb]

/-- Settles O54: each signal by its own rule. -/
theorem outputSignals : Obligations.OutputSignals :=
  fun _ => ⟨State.symReady_iff, Iff.rfl, State.faultPin_iff, State.pcmData_busy _, State.pcmData_rest _⟩

/-! ### The bus bridge -/

theorem cfgBase_mod_32 : Config.cfgBase % 32 = 0 := Nat.mul_mod_right 32 Config.cfgBlock

/-- R40: the bridge takes a four-byte access to `CFG_BASE + 4i` to register `i`. -/
theorem busToHost_register (b : Bool) (i : BitVec 3) (v : Word) :
    busToHost { write := b, addr := Config.cfgBase + 4 * i.toNat, size := 4, data := v } =
      .ok { we := b, addr := i, wdata := v } := by
  have hi : 4 * i.toNat ≤ 31 := by have := i.isLt; omega
  have haligned : (Config.cfgBase + 4 * i.toNat) % 4 = 0 := by have := cfgBase_mod_32; omega
  simp [busToHost, haligned, hi]

/-- R40: the bridge refuses every other access, by the first of the three names that fits. -/
theorem busToHost_refused {a : BusAccess}
    (h : a.size ≠ 4 ∨ a.addr % 4 ≠ 0 ∨ a.addr < Config.cfgBase ∨ Config.cfgBase + 31 < a.addr) :
    busToHost a = .error (if a.size ≠ 4 then .busAccessSize a.size
      else if a.addr % 4 ≠ 0 then .busAccessMisaligned a.addr else .busAccessOutside a.addr) := by
  by_cases hsize : a.size = 4
  · by_cases halign : a.addr % 4 = 0
    · have hout : a.addr < Config.cfgBase ∨ Config.cfgBase + 31 < a.addr := by simpa [hsize, halign] using h
      simp [busToHost, hsize, halign, hout]
    · simp [busToHost, hsize, halign]
  · simp [busToHost, hsize]

/-- R40: an access that the bridge refuses never reaches the block. -/
theorem perform_bus_error {a : BusAccess} {r : Refusal} (h : busToHost a = .error r) :
    perform (.bus a) s = .refused r := by
  simp [perform, h]

/-- Settles O56: the two answers of the bridge, and the refusal as the answer of the step. -/
theorem busAccessReachesRegisterOrIsRefused : Obligations.BusAccessReachesRegisterOrIsRefused := by
  refine ⟨cfgBase_mod_32, fun i v => ⟨busToHost_register true i v, busToHost_register false i v⟩, ?refused⟩
  case refused =>
    intro s a rest ha h
    rw [step_agenda ha, perform_bus_error (busToHost_refused h)]

/-! ### The moves of one clock edge -/

/-- One step of a run, by what the next event does. -/
theorem runSteps_succ {e : Event} {rest : List Event} (k : Nat) (ha : s.agenda = e :: rest)
    (hp : perform e (s.setAgenda rest) = .next t) : runSteps (k + 1) s = runSteps k t := by
  simp [runSteps, step_agenda ha, hp]

/-- R64: a `STOP` between symbols ends the run at once. -/
theorem perform_stop_between {op : HostOp} {v : Word} (hop : decodeHost op = .stop v) (hm : s.mode = .run)
    (hb : s.busy = false) : perform (.host op) s = .next s.endRun := by
  simp [perform, hop, exec, execStop, hm, hb]

/-- R64: a `STOP` inside a symbol is remembered. -/
theorem perform_stop_within {op : HostOp} {v : Word} (hop : decodeHost op = .stop v) (hm : s.mode = .run)
    (hb : s.busy = true) : perform (.host op) s = .next s.requestStop := by
  simp [perform, hop, exec, execStop, hm, hb]

/-- R65: an `SRST` is the reset of the block. -/
theorem perform_srst {op : HostOp} {v : Word} (hop : decodeHost op = .srst v) :
    perform (.host op) s = .next s.resetBlock := by
  simp [perform, hop, exec, execSrst]

/-- R89: the sink takes nothing between symbols. -/
theorem perform_sinkReady_wait (hb : s.busy = false) : perform .sinkReady s = .next s := by
  rw [perform, State.emitSample_wait _ hb]

/-- R89: the sink takes the last sample of a symbol. -/
theorem perform_sinkReady_last (hb : s.busy = true) (hl : s.nidx.toNat + 1 = s.sps.toNat) :
    perform .sinkReady s = .next (s.pushSample (s.nextSample Config.hardware)).finishSymbol := by
  rw [perform, State.emitSample_last _ hb hl]

/-- R88: a block that is not ready takes no word. -/
theorem perform_sourceOffers_wait (hr : s.symReady = false) : perform .sourceOffers s = .next s := by
  cases hs : s.source <;> simp [perform, hs, hr]

/-- R88: a ready block takes the first word of the source's list. -/
theorem perform_sourceOffers_take {w : Cmd} {ws : List Cmd} (hs : s.source = w :: ws) (hr : s.symReady = true) :
    perform .sourceOffers s = .next ((s.setSource ws).takeWord w) := by
  rw [perform_sourceOffers_ready hs hr, decode, exec_decodeSymbol, State.acceptCommand_ready w (by simpa using hr)]

/-- R48: a `STOP` on the edge of an accept wins, and the word stays with the source. -/
theorem runSteps_stop_accept {op : HostOp} {v : Word} {rest : List Event} (hop : decodeHost op = .stop v)
    (hm : s.mode = .run) (hb : s.busy = false) (ha : s.agenda = .host op :: .sourceOffers :: rest) :
    runSteps 2 s = .next { s with mode := .idle, agenda := rest } :=
  calc runSteps 2 s
    _ = runSteps 1 (s.setAgenda (.sourceOffers :: rest)).endRun :=
      runSteps_succ 1 ha (perform_stop_between hop hm hb)
    _ = runSteps 0 ((s.setAgenda (.sourceOffers :: rest)).endRun.setAgenda rest) :=
      runSteps_succ 0 rfl (perform_sourceOffers_wait (by simp [State.symReady]))
    _ = .next { s with mode := .idle, agenda := rest } := rfl

/-- R48: a `STOP` on the edge of a symbol's last emit and an accept is seen by both. -/
theorem runSteps_stop_emitLast_accept {op : HostOp} {v : Word} {rest : List Event} (hop : decodeHost op = .stop v)
    (hm : s.mode = .run) (hb : s.busy = true) (hl : s.nidx.toNat + 1 = s.sps.toNat)
    (ha : s.agenda = .host op :: .sinkReady :: .sourceOffers :: rest) :
    runSteps 3 s = .next { s with
      out := s.out ++ [s.nextSample Config.hardware], mode := .idle, busy := false, stopPending := false,
      nidx := 0#32, phase := 0#32, agenda := rest } :=
  calc runSteps 3 s
    _ = runSteps 2 (s.setAgenda (.sinkReady :: .sourceOffers :: rest)).requestStop :=
      runSteps_succ 2 ha (perform_stop_within hop hm hb)
    _ = runSteps 1 ((s.requestStop.setAgenda (.sourceOffers :: rest)).pushSample
          (s.nextSample Config.hardware)).finishSymbol :=
      runSteps_succ 1 rfl (perform_sinkReady_last hb hl)
    _ = runSteps 0 (((s.requestStop.setAgenda rest).pushSample (s.nextSample Config.hardware)).finishSymbol) :=
      runSteps_succ 0 rfl (perform_sourceOffers_wait rfl)
    _ = .next { s with
          out := s.out ++ [s.nextSample Config.hardware], mode := .idle, busy := false, stopPending := false,
          nidx := 0#32, phase := 0#32, agenda := rest } := rfl

/-- R48, R107: after an `SRST` the emit and the accept of the same edge are not enabled. -/
theorem runSteps_srst_emit_accept {op : HostOp} {v : Word} {rest : List Event} (hop : decodeHost op = .srst v)
    (ha : s.agenda = .host op :: .sinkReady :: .sourceOffers :: rest) :
    runSteps 3 s = .next (State.resetBlock { s with agenda := rest }) :=
  calc runSteps 3 s
    _ = runSteps 2 (s.setAgenda (.sinkReady :: .sourceOffers :: rest)).resetBlock :=
      runSteps_succ 2 ha (perform_srst hop)
    _ = runSteps 1 (s.setAgenda (.sourceOffers :: rest)).resetBlock :=
      runSteps_succ 1 rfl (perform_sinkReady_wait rfl)
    _ = runSteps 0 (s.setAgenda rest).resetBlock :=
      runSteps_succ 0 rfl (perform_sourceOffers_wait rfl)
    _ = .next (State.resetBlock { s with agenda := rest }) := rfl

/-- R48: the emit of a symbol's last sample makes the block ready for an accept on the same edge. -/
theorem runSteps_emitLast_accept {w : Cmd} {ws : List Cmd} {rest : List Event} (hm : s.mode = .run)
    (hb : s.busy = true) (hp : s.stopPending = false) (hl : s.nidx.toNat + 1 = s.sps.toNat)
    (hs : s.source = w :: ws) (ha : s.agenda = .sinkReady :: .sourceOffers :: rest) :
    runSteps 2 s = .next { s with
      out := s.out ++ [s.nextSample Config.hardware], cur := w, nidx := 0#32, phase := 0#32,
      source := ws, agenda := rest, taken := s.taken ++ [w] } := by
  have hready : (s.pushSample (s.nextSample Config.hardware)).finishSymbol.symReady = true :=
    State.symReady_iff.mpr ⟨by simp [hp, hm], rfl⟩
  calc runSteps 2 s
    _ = runSteps 1 ((s.setAgenda (.sourceOffers :: rest)).pushSample (s.nextSample Config.hardware)).finishSymbol :=
      runSteps_succ 1 ha (perform_sinkReady_last hb hl)
    _ = runSteps 0 ((((s.setAgenda rest).pushSample (s.nextSample Config.hardware)).finishSymbol.setSource ws).takeWord
          w) :=
      runSteps_succ 0 rfl (perform_sourceOffers_take hs hready)
    _ = _ := by
      simp [runSteps, State.takeWord, State.setSource, State.finishSymbol, State.pushSample, State.setAgenda, hp, hb]

/-- Settles O55: the order of an edge, then the cases that share one. -/
theorem edgeOrderHostEmitAccept : Obligations.EdgeOrderHostEmitAccept := by
  refine ⟨fun g h => ?rst, fun g h => ?order,
    fun s op rest v hop hm hb ha => runSteps_stop_accept hop hm hb ha,
    fun s op rest v hop hm hb hl ha => runSteps_stop_emitLast_accept hop hm hb hl ha,
    fun s op rest v hop ha => runSteps_srst_emit_accept hop ha,
    fun s w ws rest hm hb hp hl hs ha => runSteps_emitLast_accept hm hb hp hl hs ha⟩
  case rst => simp [edgeEvents, h]
  case order => cases hc : g.cfg <;> simp [edgeEvents, h, hc]

/-! ### What a run has pushed -/

/-- R90: a command is `N` words. -/
@[simp] theorem length_runOf (c : Config) (N : Nat) (w : Cmd) : (runOf c N w).length = N := by
  simp [runOf]

/-- R96: a stream is `N` words for each of its commands. -/
@[simp] theorem length_modulate (c : Config) (N : Nat) (ws : List Cmd) :
    (modulate c N ws).length = N * ws.length := by
  simp [modulate, List.length_flatMap, Nat.mul_comm]

/-- R96: the run of one more command comes after the others. -/
theorem modulate_append_singleton (c : Config) (N : Nat) (ws : List Cmd) (w : Cmd) :
    modulate c N (ws ++ [w]) = modulate c N ws ++ runOf c N w := by
  simp [modulate]

/-- R97: since the run began, `OUT` is the first words of `modulate` of the words taken: `SPS` for each command
completed, and `NIDX` for the one in progress. -/
theorem State.OutputInv.out_drop_eq_take (h : s.OutputInv c) (hr : s.RegistersInv c) :
    s.out.drop s.runBase = (modulate c s.sps.toNat s.taken).take
      (s.sps.toNat * (s.taken.length - if s.busy then 1 else 0) + s.nidx.toNat) := by
  cases hb : s.busy
  case false =>
    have hn : s.nidx = 0#32 := hr.rest_index hb
    simp [h.between hb, hn, List.take_of_length_le]
  case true =>
    obtain ⟨ws, htaken, hout⟩ := h.within hb
    rw [hout, htaken, modulate_append_singleton]
    simp [List.take_append, List.take_of_length_le]

/-- Settles O45: the closed form of R97 names only what the two states agree on. -/
theorem outputDependsOnWordsTakenOnly : Obligations.OutputDependsOnWordsTakenOnly := by
  intro c s t hsr hso htr hto hsps htaken hbusy hnidx
  rw [hso.out_drop_eq_take hsr, hto.out_drop_eq_take htr, hsps, htaken, hbusy, hnidx]

end Sys2Proof.Machine
end

section
/-! The decoder and the encoder (30_encoding.md R52 to R58): one equation for each row of the two formats, the two round
trips, the opcode table, and the pseudo-instructions (family 30_encoding.md). -/

namespace Sys2Proof.Machine

variable {reg : BitVec 3} {v : Word}

/-! ### Format S -/

/-- R54, row `BLANK`: bit 2 alone makes a blank. -/
@[simp] theorem decodeSymbol_blank (low : BitVec 2) : decodeSymbol (1#1 ++ low) = .blank low := by
  revert low
  decide

/-- Each symbol word and each blank is an instruction without selector bits in its operand. -/
theorem wellFormed_decodeSymbol (w : Cmd) : (decodeSymbol w).WellFormed := by
  revert w
  decide

/-! ### Format H, writes to `CTRL` -/

/-- R28: `SRST` has the first priority. -/
theorem decodeCtrl_srst (h2 : v.getLsbD 2 = true) : decodeCtrl v = .srst v := by
  rw [decodeCtrl, if_pos h2]

/-- R28: `STOP` has the second. -/
theorem decodeCtrl_stop (h2 : v.getLsbD 2 = false) (h1 : v.getLsbD 1 = true) : decodeCtrl v = .stop v := by
  rw [decodeCtrl, if_neg (Bool.eq_false_iff.mp h2), if_pos h1]

/-- R28: `START` has the third. -/
theorem decodeCtrl_start (h2 : v.getLsbD 2 = false) (h1 : v.getLsbD 1 = false) (h0 : v.getLsbD 0 = true) :
    decodeCtrl v = .start v := by
  rw [decodeCtrl, if_neg (Bool.eq_false_iff.mp h2), if_neg (Bool.eq_false_iff.mp h1), if_pos h0]

/-- R66: with none of the three bits set the write is `CTRL_NOP`. -/
theorem decodeCtrl_ctrlNop (h2 : v.getLsbD 2 = false) (h1 : v.getLsbD 1 = false) (h0 : v.getLsbD 0 = false) :
    decodeCtrl v = .ctrlNop v := by
  rw [decodeCtrl, if_neg (Bool.eq_false_iff.mp h2), if_neg (Bool.eq_false_iff.mp h1),
    if_neg (Bool.eq_false_iff.mp h0)]

/-- R55: the bits of the `CTRL` rows' patterns that an operand carries. -/
theorem wellFormed_stop_iff : (Instr.stop v).WellFormed ↔ v.getLsbD 2 = false ∧ v.getLsbD 1 = true := by
  rw [Instr.WellFormed, Instr.wellFormed, Bool.and_eq_true, Bool.not_eq_true']

theorem wellFormed_start_iff :
    (Instr.start v).WellFormed ↔ v.getLsbD 2 = false ∧ v.getLsbD 1 = false ∧ v.getLsbD 0 = true := by
  rw [Instr.WellFormed, Instr.wellFormed, Bool.and_eq_true, Bool.and_eq_true, Bool.not_eq_true', Bool.not_eq_true',
    and_assoc]

theorem wellFormed_ctrlNop_iff :
    (Instr.ctrlNop v).WellFormed ↔ v.getLsbD 2 = false ∧ v.getLsbD 1 = false ∧ v.getLsbD 0 = false := by
  rw [Instr.WellFormed, Instr.wellFormed, Bool.and_eq_true, Bool.and_eq_true, Bool.not_eq_true', Bool.not_eq_true',
    Bool.not_eq_true', and_assoc]

/-- R56: each write to `CTRL` stands for a well-formed instruction, and no bit of it is lost. -/
theorem wellFormed_and_encode_decodeCtrl (v : Word) :
    (decodeCtrl v).WellFormed ∧ encode (decodeCtrl v) = .host (hostWrite 2#3 v) := by
  cases h2 : v.getLsbD 2
  case true => rw [decodeCtrl_srst h2]; exact ⟨h2, rfl⟩
  case false =>
    cases h1 : v.getLsbD 1
    case true => rw [decodeCtrl_stop h2 h1]; exact ⟨wellFormed_stop_iff.mpr ⟨h2, h1⟩, rfl⟩
    case false =>
      cases h0 : v.getLsbD 0
      case true => rw [decodeCtrl_start h2 h1 h0]; exact ⟨wellFormed_start_iff.mpr ⟨h2, h1, h0⟩, rfl⟩
      case false => rw [decodeCtrl_ctrlNop h2 h1 h0]; exact ⟨wellFormed_ctrlNop_iff.mpr ⟨h2, h1, h0⟩, rfl⟩

/-! ### Format H -/

/-- R52: a host operation is a read or a write. -/
theorem hostOp_cases (op : HostOp) : (∃ reg v, op = hostRead reg v) ∨ ∃ reg v, op = hostWrite reg v := by
  obtain ⟨we, reg, v⟩ := op
  cases we
  · exact .inl ⟨reg, v, rfl⟩
  · exact .inr ⟨reg, v, rfl⟩

/-- R25: a register is one of 0 to 5, or reserved. -/
theorem register_cases (reg : BitVec 3) : reg = 0#3 ∨ reg = 1#3 ∨ reg = 2#3 ∨ reg = 3#3 ∨ reg = 4#3 ∨ reg = 5#3 ∨
    (reg.getLsbD 2 && reg.getLsbD 1) = true := by
  revert reg
  decide

/-- R68: the reserved registers are 6 and 7. -/
theorem reserved_cases (reg : BitVec 3) (h : (reg.getLsbD 2 && reg.getLsbD 1) = true) : reg = 6#3 ∨ reg = 7#3 := by
  revert reg
  decide

@[simp] theorem decodeHost_hostRead (reg : BitVec 3) (d : Word) : decodeHost (hostRead reg d) = .rd reg d := rfl

@[simp] theorem decodeHost_sampleRate (v : Word) : decodeHost (hostWrite 0#3 v) = .wrSampleRate v := rfl

@[simp] theorem decodeHost_symbolRate (v : Word) : decodeHost (hostWrite 1#3 v) = .wrSymbolRate v := rfl

@[simp] theorem decodeHost_ctrl (v : Word) : decodeHost (hostWrite 2#3 v) = decodeCtrl v := rfl

@[simp] theorem decodeHost_status (v : Word) : decodeHost (hostWrite 3#3 v) = .wrRoStatus v := rfl

@[simp] theorem decodeHost_sps (v : Word) : decodeHost (hostWrite 4#3 v) = .wrRoSps v := rfl

@[simp] theorem decodeHost_cause (v : Word) : decodeHost (hostWrite 5#3 v) = .wrRoCause v := rfl

/-- R55, row `1 11x xxx`: a write to register 6 or 7. -/
theorem decodeHost_reserved (h : (Instr.wrRsvd reg v).WellFormed) : decodeHost (hostWrite reg v) = .wrRsvd reg v := by
  obtain rfl | rfl := reserved_cases reg h
  · rfl
  · rfl

/-! ### Decoding an encoding -/

/-- Settles O4: the equation of the instruction's row. -/
theorem decodeEncodeRoundTrip : Obligations.DecodeEncodeRoundTrip := by
  intro i h
  cases i with
  | sym0 => rfl
  | sym1 => rfl
  | sym2 => rfl
  | sym3 => rfl
  | blank low => exact decodeSymbol_blank low
  | rd reg d => exact decodeHost_hostRead reg d
  | wrSampleRate v => exact decodeHost_sampleRate v
  | wrSymbolRate v => exact decodeHost_symbolRate v
  | srst v => exact decodeCtrl_srst h
  | stop v =>
    obtain ⟨h2, h1⟩ := wellFormed_stop_iff.mp h
    exact decodeCtrl_stop h2 h1
  | start v =>
    obtain ⟨h2, h1, h0⟩ := wellFormed_start_iff.mp h
    exact decodeCtrl_start h2 h1 h0
  | ctrlNop v =>
    obtain ⟨h2, h1, h0⟩ := wellFormed_ctrlNop_iff.mp h
    exact decodeCtrl_ctrlNop h2 h1 h0
  | wrRoStatus v => exact decodeHost_status v
  | wrRoSps v => exact decodeHost_sps v
  | wrRoCause v => exact decodeHost_cause v
  | wrRsvd reg v => exact decodeHost_reserved h

/-- Settles O1: the eight words are the encodings of R54's instructions. -/
theorem symbolWordsDecode : Obligations.SymbolWordsDecode :=
  ⟨decodeEncodeRoundTrip .sym0 rfl, decodeEncodeRoundTrip .sym1 rfl, decodeEncodeRoundTrip .sym2 rfl,
    decodeEncodeRoundTrip .sym3 rfl, decodeSymbol_blank 0b00#2, decodeSymbol_blank 0b01#2, decodeSymbol_blank 0b10#2,
    decodeSymbol_blank 0b11#2⟩

/-- Settles O2: each host operation is the encoding of the instruction that its row names. -/
theorem hostWordsDecode : Obligations.HostWordsDecode :=
  ⟨decodeHost_hostRead 3#3 0#32, decodeHost_sampleRate 48000#32, decodeHost_symbolRate 6000#32,
    decodeEncodeRoundTrip (.start 1#32) rfl, decodeEncodeRoundTrip (.stop 2#32) rfl,
    decodeEncodeRoundTrip (.srst 4#32) rfl, decodeEncodeRoundTrip (.srst 7#32) rfl,
    decodeEncodeRoundTrip (.stop 3#32) rfl, decodeEncodeRoundTrip (.ctrlNop 0xFFFFFFF8#32) rfl,
    decodeHost_status 5#32, decodeHost_sps 5#32, decodeHost_cause 0#32, decodeEncodeRoundTrip (.wrRsvd 6#3 5#32) rfl,
    decodeEncodeRoundTrip (.wrRsvd 7#3 0x12345678#32) rfl⟩

/-! ### Encoding what was decoded -/

/-- R56: each host operation stands for a well-formed instruction, and no bit of it is lost. -/
theorem wellFormed_and_encode_decodeHost (op : HostOp) :
    (decodeHost op).WellFormed ∧ encode (decodeHost op) = .host op := by
  obtain ⟨reg, d, rfl⟩ | ⟨reg, v, rfl⟩ := hostOp_cases op
  case inl => exact ⟨rfl, rfl⟩
  case inr =>
    obtain rfl | rfl | rfl | rfl | rfl | rfl | h := register_cases reg
    · exact ⟨rfl, rfl⟩
    · exact ⟨rfl, rfl⟩
    · exact wellFormed_and_encode_decodeCtrl v
    · exact ⟨rfl, rfl⟩
    · exact ⟨rfl, rfl⟩
    · exact ⟨rfl, rfl⟩
    · rw [decodeHost_reserved h]; exact ⟨h, rfl⟩

/-- Settles O5: port by port. -/
theorem encodeDecodeRoundTrip : Obligations.EncodeDecodeRoundTrip := by
  intro w
  cases w with
  | sym w => exact ⟨wellFormed_decodeSymbol w, encode_decodeSymbol w⟩
  | host op => exact wellFormed_and_encode_decodeHost op

/-! ### The opcode table -/

/-- R55: the word of a well-formed instruction matches the instruction's own row and no other. -/
theorem matchingRows_encode (i : Instr) : Laws.EncodesTableRow.Statement i := by
  cases i with
  | sym0 => exact Laws.EncodesTableRow.sym0
  | sym1 => exact Laws.EncodesTableRow.sym1
  | sym2 => exact Laws.EncodesTableRow.sym2
  | sym3 => exact Laws.EncodesTableRow.sym3
  | blank low => exact Laws.EncodesTableRow.blank low
  | rd reg d => exact Laws.EncodesTableRow.rd reg d
  | wrSampleRate v => exact Laws.EncodesTableRow.wrSampleRate v
  | wrSymbolRate v => exact Laws.EncodesTableRow.wrSymbolRate v
  | srst v => exact Laws.EncodesTableRow.srst v
  | stop v => exact Laws.EncodesTableRow.stop v
  | start v => exact Laws.EncodesTableRow.start v
  | ctrlNop v => exact Laws.EncodesTableRow.ctrlNop v
  | wrRoStatus v => exact Laws.EncodesTableRow.wrRoStatus v
  | wrRoSps v => exact Laws.EncodesTableRow.wrRoSps v
  | wrRoCause v => exact Laws.EncodesTableRow.wrRoCause v
  | wrRsvd reg v => exact Laws.EncodesTableRow.wrRsvd reg v

/-- Settles O3: every word is the encoding of the well-formed instruction it decodes to, so it matches that
instruction's row alone. -/
theorem decoderFollowsOpcodeTable : Obligations.DecoderFollowsOpcodeTable := by
  intro w
  obtain ⟨hwf, henc⟩ := encodeDecodeRoundTrip w
  have hrow := matchingRows_encode (decode w) hwf
  rwa [henc] at hrow

/-! ### Pseudo-instructions -/

/-- The instruction `SYM k` (R54, R57). -/
def symInstr (k : BitVec 2) : Instr :=
  match k.toNat with
  | 0 => .sym0
  | 1 => .sym1
  | 2 => .sym2
  | _ => .sym3

@[simp] theorem decodeSymbol_symWord (k : BitVec 2) : decodeSymbol (symWord k) = symInstr k := by
  revert k
  decide

/-- R57: the canonical blank has its two low bits clear. -/
@[simp] theorem decodeSymbol_blankWord : decodeSymbol blankWord = .blank 0#2 := decodeSymbol_blank 0#2

@[simp] theorem decodeHost_startOp : decodeHost startOp = .start 1#32 := decodeEncodeRoundTrip (.start 1#32) rfl

/-- The dibits of a byte, most significant first (R58). -/
def dibits (b : BitVec 8) : List (BitVec 2) :=
  [b.extractLsb' 6 2, b.extractLsb' 4 2, b.extractLsb' 2 2, b.extractLsb' 0 2]

/-- R58: `BYTE b` is one `SYM` for each dibit of `b`. -/
theorem byteWords_eq_map_dibits (b : BitVec 8) : byteWords b = (dibits b).map symWord := rfl

theorem map_decodeSymbol_byteWords (b : BitVec 8) : (byteWords b).map decodeSymbol = (dibits b).map symInstr := by
  simp [byteWords_eq_map_dibits]

/-- Settles O6: each expansion word by word. -/
theorem pseudoInstructionsExpand : Obligations.PseudoInstructionsExpand := by
  refine ⟨?byte, ?tone, ?silence, ?config⟩
  case byte => exact map_decodeSymbol_byteWords
  case tone => exact fun _ _ => rfl
  case silence => simp [silenceWords]
  case config => simp [configOps]

end Sys2Proof.Machine
end

section
/-! The host operations (40_configuration_ops.md R59 to R68): what each answers in each mode, said once, and the
statements about reads, rate writes, `START`, `STOP`, `SRST` and the ignored writes (family 40_configuration_ops.md). -/

namespace Sys2Proof.Machine

variable {s : State}

/-! ### Answers -/

/-- Settles O10: each arm of `exec` is the next state of its own row, with no fault and no refusal among them. -/
theorem everyInstructionAnswersNext : Obligations.EveryInstructionAnswersNext := by
  intro i s
  cases i with
  | _ => exact ⟨_, rfl⟩

/-! ### `RD` -/

theorem State.cfgRead_cause (s : State) : s.cfgRead 5#3 = s.causeWord := rfl

/-- R60: a read that returns `w` adds `w` to what the host has read. -/
theorem exec_rd_of_cfgRead {reg : BitVec 3} {w : Word} (h : s.cfgRead reg = w) (d : Word) :
    exec (.rd reg d) s = .next { s with reads := s.reads ++ [w] } := by
  rw [exec_rd, h, State.logRead]

/-- Settles O11: a host operation that is no write is a read, and each register's read value is that of R60's table. -/
theorem readReturnsRegister : Obligations.ReadReturnsRegister := by
  refine ⟨?decodes, fun s d => ⟨exec_rd_of_cfgRead rfl d, exec_rd_of_cfgRead rfl d, exec_rd_of_cfgRead rfl d,
    exec_rd_of_cfgRead rfl d, exec_rd_of_cfgRead rfl d, exec_rd_of_cfgRead ?cause d, exec_rd_of_cfgRead rfl d,
    exec_rd_of_cfgRead rfl d⟩⟩
  case decodes =>
    rintro ⟨we, reg, d⟩ rfl
    exact decodeHost_hostRead reg d
  case cause =>
    rw [State.cfgRead_cause, State.causeWord]
    cases s.cause <;> rfl

/-! ### The rates -/

theorem exec_wrSampleRate_idle (hm : s.mode = .idle) (v : Word) :
    exec (.wrSampleRate v) s = .next (s.setSampleRate v) := by
  rw [exec, execWrSampleRate, if_pos hm]

theorem exec_wrSampleRate_ignored (hm : s.mode ≠ .idle) (v : Word) : exec (.wrSampleRate v) s = .next s := by
  rw [exec, execWrSampleRate, if_neg hm]

theorem exec_wrSymbolRate_idle (hm : s.mode = .idle) (v : Word) :
    exec (.wrSymbolRate v) s = .next (s.setSymbolRate v) := by
  rw [exec, execWrSymbolRate, if_pos hm]

theorem exec_wrSymbolRate_ignored (hm : s.mode ≠ .idle) (v : Word) : exec (.wrSymbolRate v) s = .next s := by
  rw [exec, execWrSymbolRate, if_neg hm]

/-- Settles O13: both rates, in `IDLE` and outside it. -/
theorem rateWritesHonouredInIdleOnly : Obligations.RateWritesHonouredInIdleOnly :=
  ⟨fun v => ⟨decodeHost_sampleRate v, decodeHost_symbolRate v⟩, fun _ v =>
    ⟨(exec_wrSampleRate_idle · v), (exec_wrSymbolRate_idle · v), (exec_wrSampleRate_ignored · v),
      (exec_wrSymbolRate_ignored · v)⟩⟩

/-! ### `START` -/

/-- R63, R103: the check in the integers of R10. -/
theorem State.configurationCheck_eq_toNat (s : State) : s.configurationCheck =
    if s.symbolRate.toNat = 0 then .symbolRateZero
    else if s.sampleRate.toNat = 0 then .sampleRateZero
    else if s.sampleRate.toNat % s.symbolRate.toNat = 0 then .none
    else .ratioNotIntegral := by
  simp [State.configurationCheck, BitVec.toNat_eq]

theorem exec_start_ignored (hm : s.mode ≠ .idle) (v : Word) : exec (.start v) s = .next s := by
  rw [exec, execStart, State.startRun, if_neg hm]

/-- R63: rates that pass the check begin a run. -/
theorem exec_start_begins (hm : s.mode = .idle) (hc : s.configurationCheck = .none) (v : Word) :
    exec (.start v) s = .next s.beginRun := by
  rw [exec, execStart, State.startRun_begins hm hc]

/-- R63, R104: a cause that the check finds is raised. -/
theorem exec_start_raises (k : Cause) (hm : s.mode = .idle) (hc : s.configurationCheck = k) (hk : k ≠ .none)
    (v : Word) : exec (.start v) s = .next (s.raiseConfigurationError k) := by
  subst hc
  obtain ⟨hm', -⟩ | ⟨-, hc, -⟩ | ⟨-, -, hraise⟩ := s.startRun_cases
  · exact absurd hm hm'
  · exact absurd hc hk
  · rw [exec, execStart, hraise]

/-- Settles O14: the check, condition by condition, and what `START` does with its answer. -/
theorem startChecksThenBeginsOrRaises : Obligations.StartChecksThenBeginsOrRaises := by
  refine ⟨fun v h2 h1 h0 => decodeCtrl_start h2 h1 h0, fun s v => ⟨fun hm => exec_start_ignored hm v,
    fun hm hy => exec_start_raises .symbolRateZero hm ?symbolRateZero nofun v,
    fun hm hy hs => exec_start_raises .sampleRateZero hm ?sampleRateZero nofun v,
    fun hm hy hs hr => exec_start_raises .ratioNotIntegral hm ?ratioNotIntegral nofun v, fun hm hy hs hr => ?begins⟩⟩
  case symbolRateZero => rw [s.configurationCheck_eq_toNat, if_pos hy]
  case sampleRateZero => rw [s.configurationCheck_eq_toNat, if_neg hy, if_pos hs]
  case ratioNotIntegral => rw [s.configurationCheck_eq_toNat, if_neg hy, if_neg hs, if_neg hr]
  case begins =>
    have hc : s.configurationCheck = .none := by
      rw [s.configurationCheck_eq_toNat, if_neg hy, if_neg hs, if_pos hr]
    rw [exec_start_begins hm hc, State.beginRun, BitVec.udiv_def]

/-! ### `STOP` -/

theorem exec_stop_ignored (hm : s.mode ≠ .run) (v : Word) : exec (.stop v) s = .next s := by
  rw [exec, execStop, if_neg hm]

theorem exec_stop_between (hm : s.mode = .run) (hb : s.busy = false) (v : Word) :
    exec (.stop v) s = .next s.endRun := by
  simp [exec, execStop, hm, hb]

theorem exec_stop_within (hm : s.mode = .run) (hb : s.busy = true) (v : Word) :
    exec (.stop v) s = .next s.requestStop := by
  simp [exec, execStop, hm, hb]

/-- Settles O15: outside `RUN`, between symbols, and inside a symbol. -/
theorem stopEndsRunOrIsRemembered : Obligations.StopEndsRunOrIsRemembered :=
  ⟨fun _ h2 h1 => decodeCtrl_stop h2 h1, fun _ v =>
    ⟨(exec_stop_ignored · v), (exec_stop_between · · v), (exec_stop_within · · v)⟩⟩

/-! ### `SRST` -/

theorem exec_srst (v : Word) (s : State) : exec (.srst v) s = .next s.resetBlock := rfl

/-- Settles O16: `SRST` and the event of an `rst` edge are the same reset of the block. -/
theorem softResetEqualsReset : Obligations.SoftResetEqualsReset := by
  refine ⟨fun v h2 => decodeCtrl_srst h2, fun s v => exec_srst v s, fun s v rest ha => ?edge⟩
  case edge =>
    calc step s = perform .reset (s.setAgenda rest) := step_agenda ha
      _ = .next (s.setAgenda rest).resetBlock := rfl
      _ = exec (.srst v) (s.setAgenda rest) := (exec_srst v _).symm

/-! ### Ignored writes -/

/-- R66: three low bits that are 0 together are 0 each. -/
theorem getLsbD_of_extractLsb'_eq_zero {v : Word} (h : v.extractLsb' 0 3 = 0b000#3) {i : Nat} (hi : i < 3) :
    v.getLsbD i = false := by
  have hbit : (v.extractLsb' 0 3).getLsbD i = false := by rw [h, BitVec.getLsbD_zero]
  simpa [BitVec.getLsbD_extractLsb', hi] using hbit

/-- Settles O17: the row of each write, and its meaning, which is the state as it was. -/
theorem ignoredWritesChangeNothing : Obligations.IgnoredWritesChangeNothing := by
  refine ⟨fun v h => ?ctrlNop, fun v => ?readOnlyAndReserved, fun s v reg => ⟨rfl, rfl, rfl, rfl, rfl⟩⟩
  case ctrlNop =>
    have hbit : ∀ {i : Nat}, i < 3 → v.getLsbD i = false := getLsbD_of_extractLsb'_eq_zero h
    exact decodeCtrl_ctrlNop (hbit (by decide)) (hbit (by decide)) (hbit (by decide))
  case readOnlyAndReserved =>
    exact ⟨decodeHost_status v, decodeHost_sps v, decodeHost_cause v, decodeHost_reserved rfl, decodeHost_reserved rfl⟩

end Sys2Proof.Machine
end

section
/-! The rest of a symbol (42_symbol_commands.md R89, R90): from a state inside a symbol the emit steps push the words of
the command's run from `NIDX` on, and the last of them ends the symbol; with a stop pending it ends the run. -/

namespace Sys2Proof.Machine

variable {c : Config} {s : State}

/-! ### Emits inside a symbol -/

/-- R90: the run of a command from sample `n` on begins with the word of sample `n`. -/
theorem drop_runOf {N n : Nat} (hn : n < N) (c : Config) (w : Cmd) :
    (runOf c N w).drop n = wordOf c N w n :: (runOf c N w).drop (n + 1) := by
  rw [List.drop_eq_getElem_cons (by simpa using hn)]
  simp [runOf]

/-- R90, R36 (e): inside a symbol the next word is that of sample `NIDX` of the command in progress. -/
theorem State.RegistersInv.nextSample_eq_wordOf (h : s.RegistersInv c) (hb : s.busy = true) :
    s.nextSample c = wordOf c s.sps.toNat s.cur s.nidx.toNat := by
  rw [State.nextSample, h.busy_phase hb, wordOf]

/-- Several `PcmPush` of R42, one after another. -/
def State.pushSamples (xs : List Sample) (s : State) : State :=
  { s with out := s.out ++ xs }

theorem State.pushSamples_cons (x : Sample) (xs : List Sample) (s : State) :
    s.pushSamples (x :: xs) = (s.pushSample x).pushSamples xs := by
  simp [State.pushSamples, State.pushSample]

/-- The state after an emit that is not the symbol's last (R89). -/
def State.emitMore (c : Config) (s : State) : State :=
  (s.pushSample (s.nextSample c)).advanceSample c.carrierMult

theorem State.RegistersInv.emitMore (h : s.RegistersInv c) (hb : s.busy = true)
    (hl : s.nidx.toNat + 1 ≠ s.sps.toNat) : (s.emitMore c).RegistersInv c :=
  (h.pushSample _).advanceSample hb hl

/-- R89: the index counts on by 1. -/
theorem State.RegistersInv.emitMore_nidx (h : s.RegistersInv c) (hb : s.busy = true) :
    (s.emitMore c).nidx.toNat = s.nidx.toNat + 1 :=
  toNat_add_one_of_lt (h.busy_index hb)

/-- R89: before the symbol's last sample is pushed, the mode is `RUN`. -/
theorem State.RegistersInv.emitSamples_mode (h : s.RegistersInv c) (hb : s.busy = true) {k : Nat}
    (hk : s.nidx.toNat + k < s.sps.toNat) : (s.emitSamples c k).mode = .run := by
  induction k generalizing s with
  | zero => exact h.busy_run hb
  | succ k ih =>
    have hl : s.nidx.toNat + 1 ≠ s.sps.toNat := by omega
    have hn := h.emitMore_nidx hb
    have hk' : (s.emitMore c).nidx.toNat + k < s.sps.toNat := by omega
    rw [State.emitSamples, State.emitSample_more c hb hl]
    exact ih (h.emitMore hb hl) hb hk'

/-- R89, R90: the remaining emits of a symbol push the remaining words of its command and end it. -/
theorem State.RegistersInv.emitSamples_rest (h : s.RegistersInv c) (hb : s.busy = true) {k : Nat}
    (hk : s.nidx.toNat + k = s.sps.toNat) :
    s.emitSamples c k = (s.pushSamples ((runOf c s.sps.toNat s.cur).drop s.nidx.toNat)).finishSymbol := by
  induction k generalizing s with
  | zero => exact absurd (h.busy_index hb) hk.ge.not_gt
  | succ k ih =>
    have hdrop := drop_runOf (h.busy_index hb) c s.cur
    rw [← h.nextSample_eq_wordOf hb] at hdrop
    rw [State.emitSamples, hdrop]
    by_cases hl : s.nidx.toNat + 1 = s.sps.toNat
    · obtain rfl : k = 0 := by omega
      rw [State.emitSample_last c hb hl, hl, List.drop_of_length_le (by simp)]
      rfl
    · have hn := h.emitMore_nidx hb
      have hk' : (s.emitMore c).nidx.toNat + k = s.sps.toNat := by omega
      calc (s.emitSample c).emitSamples c k
        _ = (s.emitMore c).emitSamples c k := by rw [State.emitSample_more c hb hl, State.emitMore]
        _ = ((s.emitMore c).pushSamples ((runOf c s.sps.toNat s.cur).drop (s.emitMore c).nidx.toNat)).finishSymbol :=
          ih (h.emitMore hb hl) hb hk'
        _ = ((s.pushSample (s.nextSample c)).pushSamples
              ((runOf c s.sps.toNat s.cur).drop (s.nidx.toNat + 1))).finishSymbol := by rw [hn]; rfl
        _ = (s.pushSamples (s.nextSample c :: (runOf c s.sps.toNat s.cur).drop (s.nidx.toNat + 1))).finishSymbol := by
          rw [State.pushSamples_cons]

/-! ### A pending stop -/

/-- Settles O22: the stop is remembered, and the symbol's remaining emits end it with the stop pending. -/
theorem pendingStopCompletesSymbol : Obligations.PendingStopCompletesSymbol := by
  intro c s v h hb
  have hlt : s.nidx.toNat < s.sps.toNat := h.busy_index hb
  have h' : s.requestStop.RegistersInv c := h.requestStop hb
  have hrest : s.requestStop.emitSamples c (s.sps.toNat - s.nidx.toNat) =
      (s.requestStop.pushSamples ((runOf c s.sps.toNat s.cur).drop s.nidx.toNat)).finishSymbol :=
    h'.emitSamples_rest hb (Nat.add_sub_of_le hlt.le)
  refine ⟨s.requestStop, exec_stop_within (h.busy_run hb) hb v, ?_⟩
  rw [hrest]
  exact ⟨rfl, rfl, rfl, rfl, fun k hk => h'.emitSamples_mode hb (Nat.add_lt_of_lt_sub' hk)⟩

end Sys2Proof.Machine
end

section
/-! The quantised sine over the whole turn (41_synthesis_datapath.md R75, R78): every angle folds onto the first quarter
with a sign, so `QSIN` has the symmetries of the sine, and stays within the amplitude. -/

namespace Sys2Proof.Machine

variable {N u : ℕ} {t σ : ℤ}

/-! ### Folding an angle onto the first quarter -/

/-- With `4N` steps to the turn, the angle `t` has the sine of the first-quarter angle `u`, up to the sign `σ`. One
constructor for each quarter, and `k` whole turns. -/
inductive FoldsTo (N : ℕ) (t : ℤ) (u : ℕ) : ℤ → Prop where
  | first (k : ℤ) (h : t = u + 4 * N * k) : FoldsTo N t u 1
  | second (k : ℤ) (h : t = 2 * N - u + 4 * N * k) : FoldsTo N t u 1
  | third (k : ℤ) (h : t = 2 * N + u + 4 * N * k) : FoldsTo N t u (-1)
  | fourth (k : ℤ) (h : t = -u + 4 * N * k) : FoldsTo N t u (-1)

theorem FoldsTo.sign (h : FoldsTo N t u σ) : σ = 1 ∨ σ = -1 := by
  cases h <;> simp

theorem exists_foldsTo (hN : 1 ≤ N) (t : ℤ) : ∃ u ≤ N, ∃ σ, FoldsTo N t u σ := by
  obtain ⟨r, hr, ht⟩ := exists_remainder t hN
  obtain ⟨k, hk⟩ : ∃ k : ℤ, t = r + 4 * N * k :=
    ⟨t / (4 * N : ℕ), by rw [← ht, ← Nat.cast_ofNat (R := ℤ), ← Nat.cast_mul, Int.emod_add_mul_ediv]⟩
  by_cases h1 : r ≤ N
  · exact ⟨r, h1, 1, .first k hk⟩
  by_cases h2 : r ≤ 2 * N
  · exact ⟨2 * N - r, by omega, 1, .second k (by push_cast [h2]; linarith)⟩
  by_cases h3 : r ≤ 3 * N
  · exact ⟨r - 2 * N, by omega, -1, .third k (by push_cast [(not_le.mp h2).le]; linarith)⟩
  · exact ⟨4 * N - r, by omega, -1, .fourth (k + 1) (by push_cast [hr.le]; linarith)⟩

/-- The remainder of `r + 4N * k`, for a natural `r` below the turn. -/
theorem emod_of_eq_add_turns {r : ℕ} {k : ℤ} (hr : r < 4 * N) (h : t = r + 4 * N * k) : t % (4 * N : ℕ) = r := by
  have hr0 : (r : ℤ) % (4 * N : ℕ) = r := Int.emod_eq_of_lt (by omega) (by exact_mod_cast hr)
  rw [h, show (4 * N : ℤ) = (4 * N : ℕ) by push_cast; rfl, Int.add_mul_emod_self_left, hr0]

/-- R75: `QSIN` is the quarter wave at the folded angle, with the sign of the half turn. -/
theorem qsin_of_foldsTo (A : ℕ) (hN : 1 ≤ N) (hu : u ≤ N) (h : FoldsTo N t u σ) :
    qsin A t (4 * N) = σ * qsinQuarter A N u := by
  cases h with
  | first k h =>
    rw [qsin_of_remainder (emod_of_eq_add_turns (by omega) h), if_pos hu, one_mul]
  | second k h =>
    have hr : t = ((2 * N - u : ℕ) : ℤ) + 4 * N * k := by push_cast [show u ≤ 2 * N by omega]; exact h
    rw [qsin_of_remainder (emod_of_eq_add_turns (by omega) hr), one_mul]
    split
    · rw [show 2 * N - u = u by omega]
    · rw [if_pos (by omega), show 2 * N - (2 * N - u) = u by omega]
  | third k h =>
    have hr : t = ((2 * N + u : ℕ) : ℤ) + 4 * N * k := by push_cast; exact h
    rw [qsin_of_remainder (emod_of_eq_add_turns (by omega) hr), if_neg (by omega), neg_one_mul]
    split
    · obtain rfl : u = 0 := by omega
      rw [show 2 * N - (2 * N + 0) = 0 by omega, qsinQuarter_zero A hN, Nat.cast_zero, neg_zero]
    · rw [if_pos (by omega), show 2 * N + u - 2 * N = u by omega]
  | fourth k h =>
    rcases Nat.eq_zero_or_pos u with rfl | hu0
    · rw [qsin_of_remainder (r := 0) (emod_of_eq_add_turns (by omega) (by simpa using h)), if_pos hu,
        qsinQuarter_zero A hN, Nat.cast_zero, mul_zero]
    · have hr : t = ((4 * N - u : ℕ) : ℤ) + 4 * N * (k - 1) := by
        push_cast [show u ≤ 4 * N by omega]; linarith
      rw [qsin_of_remainder (emod_of_eq_add_turns (by omega) hr), if_neg (by omega), if_neg (by omega), neg_one_mul]
      split
      · rw [show 4 * N - u - 2 * N = u by omega]
      · rw [show 4 * N - (4 * N - u) = u by omega]

/-! ### The symmetries of the turn -/

theorem FoldsTo.neg (h : FoldsTo N t u σ) : FoldsTo N (-t) u (-σ) := by
  cases h with
  | first k h => exact .fourth (-k) (by rw [h]; ring)
  | second k h => exact .third (-k - 1) (by rw [h]; ring)
  | third k h => exact .second (-k - 1) (by rw [h]; ring)
  | fourth k h => exact .first (-k) (by rw [h]; ring)

theorem FoldsTo.add_half (h : FoldsTo N t u σ) : FoldsTo N (t + 2 * N) u (-σ) := by
  cases h with
  | first k h => exact .third k (by rw [h]; ring)
  | second k h => exact .fourth (k + 1) (by rw [h]; ring)
  | third k h => exact .first (k + 1) (by rw [h]; ring)
  | fourth k h => exact .second k (by rw [h]; ring)

/-- R78 (b): `QSIN` is odd. -/
theorem qsin_neg (A : ℕ) (hN : 1 ≤ N) (t : ℤ) : qsin A (-t) (4 * N) = -qsin A t (4 * N) := by
  obtain ⟨u, hu, σ, h⟩ := exists_foldsTo hN t
  rw [qsin_of_foldsTo A hN hu h.neg, qsin_of_foldsTo A hN hu h, neg_mul]

/-- R78 (c): half a turn on, `QSIN` has the other sign. -/
theorem qsin_add_half (A : ℕ) (hN : 1 ≤ N) (t : ℤ) : qsin A (t + 2 * N) (4 * N) = -qsin A t (4 * N) := by
  obtain ⟨u, hu, σ, h⟩ := exists_foldsTo hN t
  rw [qsin_of_foldsTo A hN hu h.add_half, qsin_of_foldsTo A hN hu h, neg_mul]

/-- Settles O29: the period by `qsin_congr`, oddness and the half turn by folding, the mirror from these two. -/
theorem qsinSymmetries : Obligations.QsinSymmetries := by
  intro A N t hN
  refine ⟨qsin_congr (by simp), qsin_neg A hN t, by simpa using qsin_add_half A hN t, ?mirror⟩
  case mirror =>
    calc qsin A ((2 * N : ℕ) - t) (4 * N)
      _ = qsin A (-t + 2 * N) (4 * N) := by rw [Nat.cast_mul, Nat.cast_ofNat, neg_add_eq_sub]
      _ = qsin A t (4 * N) := by rw [qsin_add_half A hN, qsin_neg A hN, neg_neg]

/-! ### The amplitude bounds the value -/

/-- R78 (e), first half: whatever the angle and the turn, the value lies in `[-A, A]`. -/
theorem abs_qsin_le (A : ℕ) (t : ℤ) (D : ℕ) : |qsin A t D| ≤ A := by
  simp only [qsin]
  split_ifs <;> simp [qsinQuarter_le]

end Sys2Proof.Machine
end

section
/-! The quantised sine against the real sine (41_synthesis_datapath.md R75 to R78): the value is the rounded product for
every angle, so it depends on the fraction of a turn alone, has the sine's sign and growth, and takes the value at a
fraction that the real sine gives there. -/

namespace Sys2Proof.Machine

open Real

variable {A N u v : ℕ} {t σ : ℤ} {x : ℝ} {k l : ℤ}

/-! ### Rounding -/

theorem RoundsTo.unique (hk : RoundsTo x k) (hl : RoundsTo x l) : k = l := by
  obtain hx | hx := le_or_gt 0 x
  · rw [hk.1 hx, hl.1 hx]
  · rw [hk.2 hx, hl.2 hx]

theorem RoundsTo.of_nonneg (hx : 0 ≤ x) (hk : k = ⌊x + 1 / 2⌋) : RoundsTo x k :=
  ⟨fun _ => hk, fun hneg => absurd hx hneg.not_ge⟩

/-- R76: ties go away from zero, so rounding is odd. -/
theorem RoundsTo.neg (h : RoundsTo x k) : RoundsTo (-x) (-k) := by
  refine ⟨fun hx => ?_, fun hx => ?_⟩
  · obtain hneg | rfl := (neg_nonneg.mp hx).lt_or_eq
    · rw [h.2 hneg, neg_neg]
    · have hk : k = 0 := by rw [h.1 le_rfl]; norm_num
      rw [hk]; norm_num
  · rw [h.1 (neg_lt_zero.mp hx).le, neg_neg]

/-! ### The sine of a folded angle -/

theorem FoldsTo.sin_eq (hN : 1 ≤ N) (h : FoldsTo N t u σ) :
    sin (2 * π * (t / (4 * N))) = σ * sin (2 * π * (u / (4 * N))) := by
  have hN0 : (N : ℝ) ≠ 0 := by exact_mod_cast (by omega : N ≠ 0)
  set y : ℝ := 2 * π * (u / (4 * N)) with hy
  cases h with
  | first k h =>
    have e : 2 * π * (t / (4 * N)) = y + k * (2 * π) := by rw [h, hy]; push_cast; field_simp
    rw [e, sin_add_int_mul_two_pi, Int.cast_one, one_mul]
  | second k h =>
    have e : 2 * π * (t / (4 * N)) = π - y + k * (2 * π) := by rw [h, hy]; push_cast; field_simp; ring
    rw [e, sin_add_int_mul_two_pi, sin_pi_sub, Int.cast_one, one_mul]
  | third k h =>
    have e : 2 * π * (t / (4 * N)) = y + π + k * (2 * π) := by rw [h, hy]; push_cast; field_simp; ring
    rw [e, sin_add_int_mul_two_pi, sin_add_pi, Int.cast_neg, Int.cast_one, neg_one_mul]
  | fourth k h =>
    have e : 2 * π * (t / (4 * N)) = -y + k * (2 * π) := by rw [h, hy]; push_cast; field_simp
    rw [e, sin_add_int_mul_two_pi, sin_neg, Int.cast_neg, Int.cast_one, neg_one_mul]

/-- A first-quarter angle lies between 0 and a quarter turn. -/
theorem quarterAngle_mem (hN : 1 ≤ N) (hu : u ≤ N) : 2 * π * (u / (4 * N)) ∈ Set.Icc 0 (π / 2) := by
  have hN0 : (0 : ℝ) < N := by exact_mod_cast hN
  have hu1 : (u : ℝ) ≤ N := by exact_mod_cast hu
  refine ⟨by positivity, ?_⟩
  calc 2 * π * (u / (4 * N)) ≤ 2 * π * (N / (4 * N)) := by gcongr
    _ = π / 2 := by field_simp; norm_num

theorem sin_quarterAngle_nonneg (hN : 1 ≤ N) (hu : u ≤ N) : 0 ≤ sin (2 * π * (u / (4 * N))) := by
  obtain ⟨h0, h1⟩ := quarterAngle_mem hN hu
  exact sin_nonneg_of_nonneg_of_le_pi h0 (by linarith [pi_pos])

/-! ### The value is the rounded product -/

/-- R75: for any integer `t`, the fraction need not be reduced to one turn. -/
theorem qsin_roundsTo (h1 : 1 ≤ A) (hA : A ≤ 32767) (hN : 1 ≤ N) (t : ℤ) :
    RoundsTo (A * sin (2 * π * (t / (4 * N)))) (qsin A t (4 * N)) := by
  obtain ⟨u, hu, σ, h⟩ := exists_foldsTo hN t
  have hquarter : RoundsTo (A * sin (2 * π * (u / (4 * N)))) (qsinQuarter A N u) :=
    .of_nonneg (mul_nonneg A.cast_nonneg (sin_quarterAngle_nonneg hN hu)) (qsinQuarter_rounds h1 hA hN hu)
  rw [qsin_of_foldsTo A hN hu h, h.sin_eq hN]
  obtain rfl | rfl := h.sign
  · simpa using hquarter
  · simpa using hquarter.neg

/-- Settles O27: the rounded product at the angle reduced to one turn, which `QSIN` does not tell from the angle. -/
theorem qsinIsRoundedExactSine : Obligations.QsinIsRoundedExactSine := by
  intro A N t h1 hA hN
  have hr := qsin_roundsTo h1 hA hN (t % (4 * N : ℕ))
  rw [qsin_congr (Int.emod_emod t _)] at hr
  simpa using hr

/-- Settles O28: both values are the rounding of one real number. -/
theorem qsinDependsOnFractionOnly : Obligations.QsinDependsOnFractionOnly := by
  intro A N k t h1 hA hN hk
  have hk0 : (k : ℝ) ≠ 0 := by exact_mod_cast (by omega : k ≠ 0)
  have hfraction : ((k * t : ℤ) : ℝ) / (4 * (k * N : ℕ)) = t / (4 * N) := by
    push_cast
    rw [mul_left_comm, mul_div_mul_left _ _ hk0]
  have hr := qsin_roundsTo h1 hA (Nat.mul_pos hk hN) (k * t)
  rw [hfraction] at hr
  rw [mul_left_comm]
  exact hr.unique (qsin_roundsTo h1 hA hN t)

/-! ### Sign and growth -/

theorem qsinQuarter_mono (h1 : 1 ≤ A) (hA : A ≤ 32767) (hN : 1 ≤ N) (huv : u ≤ v) (hv : v ≤ N) :
    qsinQuarter A N u ≤ qsinQuarter A N v := by
  have hangle : 2 * π * ((u : ℝ) / (4 * N)) ≤ 2 * π * (v / (4 * N)) := by gcongr
  have hsin : sin (2 * π * (u / (4 * N))) ≤ sin (2 * π * (v / (4 * N))) :=
    sin_le_sin_of_le_of_le_pi_div_two (by linarith [pi_pos, (quarterAngle_mem hN (huv.trans hv)).1])
      (quarterAngle_mem hN hv).2 hangle
  have hfloor : (qsinQuarter A N u : ℤ) ≤ qsinQuarter A N v := by
    rw [qsinQuarter_rounds h1 hA hN (huv.trans hv), qsinQuarter_rounds h1 hA hN hv]
    gcongr
  exact_mod_cast hfloor

theorem qsin_first_quarter (A : ℕ) (hN : 1 ≤ N) (hu : u ≤ N) : qsin A u (4 * N) = qsinQuarter A N u := by
  simpa using qsin_of_foldsTo A hN hu (.first 0 (by ring))

theorem qsin_second_quarter (A : ℕ) (hN : 1 ≤ N) (hu : u ≤ N) :
    qsin A (2 * N - u) (4 * N) = qsinQuarter A N u := by
  simpa using qsin_of_foldsTo A hN hu (.second 0 (by ring))

/-- R78 (g): on the first half turn. -/
theorem qsin_nonneg (A : ℕ) (hN : 1 ≤ N) {t : ℕ} (ht : t ≤ 2 * N) : 0 ≤ qsin A t (4 * N) := by
  obtain h | h := le_total t N
  · rw [qsin_first_quarter A hN h]
    exact Int.natCast_nonneg _
  · rw [show (t : ℤ) = 2 * N - (2 * N - t : ℕ) by omega, qsin_second_quarter A hN (by omega)]
    exact Int.natCast_nonneg _

/-- Settles O30: the second half turn has the negated values of the first, and the quarter wave grows. -/
theorem qsinSignAndGrowth : Obligations.QsinSignAndGrowth := by
  intro A N h1 hA hN
  refine ⟨fun t ht => qsin_nonneg A hN ht, fun t hlo hhi => ?second, fun t u htu hu => ?growth⟩
  case second =>
    have hfirst := qsin_nonneg A hN (show t - 2 * N ≤ 2 * N by omega)
    rw [show (t : ℤ) = (t - 2 * N : ℕ) + 2 * N by omega, qsin_add_half A hN]
    exact neg_nonpos.mpr hfirst
  case growth =>
    rw [qsin_first_quarter A hN (htu.trans hu), qsin_first_quarter A hN hu]
    exact_mod_cast qsinQuarter_mono h1 hA hN htu hu

/-! ### Values at the fractions of the tie table -/

theorem qsin_zero (A : ℕ) (hN : 1 ≤ N) : qsin A 0 (4 * N) = 0 := by
  simpa [qsinQuarter_zero A hN] using qsin_first_quarter A hN (Nat.zero_le N)

theorem qsin_quarter (hA : A ≤ 32767) (hN : 1 ≤ N) : qsin A N (4 * N) = A := by
  rw [qsin_first_quarter A hN le_rfl, qsinQuarter_peak hA hN]

theorem qsin_half (A : ℕ) (hN : 1 ≤ N) : qsin A (2 * N) (4 * N) = 0 := by
  simpa [qsin_zero A hN] using qsin_add_half A hN 0

theorem qsin_three_quarters (hA : A ≤ 32767) (hN : 1 ≤ N) : qsin A (3 * N) (4 * N) = -A := by
  rw [show (3 * N : ℤ) = N + 2 * N by ring, qsin_add_half A hN, qsin_quarter hA hN]

/-- R77: at a twelfth of a turn the sine is `1/2`, and half an odd amplitude is a tie. -/
theorem qsinQuarter_twelfth (h1 : 1 ≤ A) (hA : A ≤ 32767) (hN : 1 ≤ N) : qsinQuarter A (3 * N) N = (A + 1) / 2 := by
  have hN0 : (N : ℝ) ≠ 0 := by exact_mod_cast (by omega : N ≠ 0)
  have hangle : 2 * π * ((N : ℝ) / (4 * (3 * N : ℕ))) = π / 6 := by push_cast; field_simp; norm_num
  have hhalf : (A : ℝ) * (1 / 2) + 1 / 2 = ((A + 1 : ℕ) : ℝ) / (2 : ℕ) := by push_cast; ring
  have hfloor : (qsinQuarter A (3 * N) N : ℤ) = ((A + 1) / 2 : ℕ) := by
    rw [qsinQuarter_rounds h1 hA (by omega) (by omega), hangle, sin_pi_div_six, hhalf,
      ← Int.natCast_floor_eq_floor (by positivity), Nat.floor_div_eq_div]
  exact_mod_cast hfloor

/-- Settles O32: the quarters by their own values, the twelfths by folding onto the first of them. -/
theorem qsinTieTable : Obligations.QsinTieTable := by
  intro A N h1 hA hN
  have htwelfths {t σ : ℤ} (h : FoldsTo (3 * N) t N σ) : qsin A t (12 * N) = σ * ((A + 1) / 2 : ℕ) := by
    have hvalue := qsin_of_foldsTo A (show 1 ≤ 3 * N by omega) (by omega) h
    rwa [qsinQuarter_twelfth h1 hA hN, ← Nat.mul_assoc] at hvalue
  refine ⟨qsin_zero A hN, qsin_quarter hA hN, by simpa using qsin_half A hN,
    by simpa using qsin_three_quarters hA hN, ?_, ?_, ?_, ?_⟩
  · simpa using htwelfths (.first 0 (by ring))
  · simpa using htwelfths (t := (5 * N : ℕ)) (.second 0 (by push_cast; ring))
  · simpa using htwelfths (t := (7 * N : ℕ)) (.third 0 (by push_cast; ring))
  · simpa using htwelfths (t := (11 * N : ℕ)) (.fourth 1 (by push_cast; ring))

end Sys2Proof.Machine
end

section
/-! Where the quantised sine is zero and where it is at its peak for the amplitude 32767 (41_synthesis_datapath.md
R78 (e), (f)): up to which ratio the step beside the angle is told from the angle itself. -/

namespace Sys2Proof.Machine

open Real

variable {N u : ℕ} {t σ : ℤ}

/-! ### The angles that fold onto the ends of the first quarter -/

theorem FoldsTo.emod_of_zero (hN : 1 ≤ N) (h : FoldsTo N t 0 σ) :
    t % (4 * N : ℕ) = 0 ∨ t % (4 * N : ℕ) = (2 * N : ℕ) := by
  cases h with
  | first k h => exact .inl (emod_of_eq_add_turns (r := 0) (by omega) h)
  | second k h => exact .inr (emod_of_eq_add_turns (k := k) (by omega) (by rw [h]; push_cast; ring))
  | third k h => exact .inr (emod_of_eq_add_turns (k := k) (by omega) (by rw [h]; push_cast; ring))
  | fourth k h => exact .inl (emod_of_eq_add_turns (r := 0) (by omega) h)

theorem FoldsTo.emod_of_peak (hN : 1 ≤ N) (h : FoldsTo N t N 1) : t % (4 * N : ℕ) = N := by
  cases h with
  | first k h => exact emod_of_eq_add_turns (by omega) h
  | second k h => exact emod_of_eq_add_turns (k := k) (by omega) (by rw [h]; ring)

theorem FoldsTo.emod_of_trough (hN : 1 ≤ N) (h : FoldsTo N t N (-1)) : t % (4 * N : ℕ) = (3 * N : ℕ) := by
  cases h with
  | third k h => exact emod_of_eq_add_turns (k := k) (by omega) (by rw [h]; push_cast; ring)
  | fourth k h => exact emod_of_eq_add_turns (k := k - 1) (by omega) (by rw [h]; push_cast; ring)

theorem qsin_of_emod_eq (A : ℕ) {r : ℤ} (h : t % (4 * N : ℕ) = r) : qsin A t (4 * N) = qsin A r (4 * N) :=
  qsin_congr (by rw [← h, Int.emod_emod])

/-! ### One step from zero -/

/-- R78 (f): up to `D = 411760` the first step is at least half a unit high, so it rounds to 1 or more. -/
theorem qsinQuarter_pos (hN : N ≤ 102940) (h0 : 1 ≤ u) (hu : u ≤ N) : 1 ≤ qsinQuarter 32767 N u := by
  have hN0 : (0 : ℝ) < N := by exact_mod_cast h0.trans hu
  have hN1 : (N : ℝ) ≤ 102940 := by exact_mod_cast hN
  have hu1 : (1 : ℝ) ≤ u := by exact_mod_cast h0
  have hangle : (1.52593e-5 : ℝ) ≤ 2 * π * (u / (4 * N)) := by
    calc (1.52593e-5 : ℝ) ≤ 2 * 3.141592 * (1 / (4 * 102940)) := by norm_num
      _ ≤ 2 * π * (u / (4 * N)) := by gcongr; exact pi_gt_d6.le
  refine ((qsinQuarter_spec le_rfl (h0.trans hu) hu).2 1 le_rfl (by norm_num)).mpr ?_
  calc ((2 * (1 : ℕ) - 1 : ℝ)) / (2 * (32767 : ℕ)) ≤ 1.52593e-5 - 1.52593e-5 ^ 3 / 6 := by norm_num
    _ ≤ sin 1.52593e-5 := sin_ge_sub_cube (by norm_num)
    _ ≤ sin (2 * π * (u / (4 * N))) :=
      sin_le_sin_of_le_of_le_pi_div_two (by linarith [pi_pos]) (quarterAngle_mem (h0.trans hu) hu).2 hangle

/-- Settles O31: a zero folds onto angle 0, because every other angle of the quarter has a positive value. -/
theorem qsinZerosAtHalfTurns : Obligations.QsinZerosAtHalfTurns := by
  intro N t hN hD
  constructor
  · intro hzero
    obtain ⟨u, hu, σ, h⟩ := exists_foldsTo hN t
    have hquarter : qsinQuarter 32767 N u = 0 := by
      rw [qsin_of_foldsTo _ hN hu h] at hzero
      obtain rfl | rfl := h.sign <;> simpa using hzero
    have hu0 : u = 0 := by
      by_contra hne
      have hpos := qsinQuarter_pos (by omega) (Nat.pos_of_ne_zero hne) hu
      omega
    subst hu0
    exact h.emod_of_zero hN
  · rintro (h | h)
    · rw [qsin_of_emod_eq _ h, qsin_zero _ hN]
    · rw [qsin_of_emod_eq _ h, Nat.cast_mul, Nat.cast_ofNat, qsin_half _ hN]

/-! ### One step from the peak -/

/-- Up to `D = 1136` a step is at least 0.00553 radians wide. -/
theorem quarterAngle_le_of_lt_peak (hN : N ≤ 284) (hu : u < N) : 2 * π * (u / (4 * N)) ≤ π / 2 - 0.00553 := by
  have hN0 : (0 : ℝ) < N := by exact_mod_cast (by omega : 0 < N)
  have hN1 : (N : ℝ) ≤ 284 := by exact_mod_cast hN
  have hu1 : (u : ℝ) ≤ N - 1 := by rw [le_sub_iff_add_le]; exact_mod_cast hu
  have hgap : (0.00553 : ℝ) ≤ π / (2 * N) := by
    calc (0.00553 : ℝ) ≤ 3.141592 / (2 * 284) := by norm_num
      _ ≤ π / (2 * N) := by gcongr; exact pi_gt_d6.le
  calc 2 * π * (u / (4 * N)) ≤ 2 * π * ((N - 1) / (4 * N)) := by gcongr
    _ = π / 2 - π / (2 * N) := by field_simp; ring
    _ ≤ π / 2 - 0.00553 := by gcongr

/-- 0.00553 radians from the peak the sine is below the bound from which `32767 * sin` rounds to 32767. -/
theorem cos_lt_peakBound : cos 0.00553 < (2 * (32767 : ℕ) - 1) / (2 * (32767 : ℕ)) := by
  have hb := (abs_le.mp (cos_bound (x := 0.00553) (by norm_num [abs_of_pos]))).2
  rw [abs_of_pos (by norm_num)] at hb
  calc cos 0.00553 ≤ 1 - 0.00553 ^ 2 / 2 + 0.00553 ^ 4 * (5 / 96) := by linarith
    _ < (2 * (32767 : ℕ) - 1) / (2 * (32767 : ℕ)) := by norm_num

/-- R78 (e): up to `D = 1136` the step beside the peak is more than half a unit below it. -/
theorem qsinQuarter_lt_peak (hN : N ≤ 284) (hu : u < N) : qsinQuarter 32767 N u < 32767 := by
  have hsin : sin (2 * π * (u / (4 * N))) < (2 * (32767 : ℕ) - 1) / (2 * (32767 : ℕ)) := by
    calc sin (2 * π * (u / (4 * N))) ≤ sin (π / 2 - 0.00553) :=
          sin_le_sin_of_le_of_le_pi_div_two (by linarith [pi_pos, (quarterAngle_mem (by omega) hu.le).1])
            (by norm_num) (quarterAngle_le_of_lt_peak hN hu)
      _ = cos 0.00553 := sin_pi_div_two_sub _
      _ < (2 * (32767 : ℕ) - 1) / (2 * (32767 : ℕ)) := cos_lt_peakBound
  have hspec := (qsinQuarter_spec le_rfl (by omega) hu.le).2 32767 (by norm_num) le_rfl
  exact not_le.mp (hspec.not.mpr hsin.not_ge)

/-- Up to `D = 1136` a value of full size is taken at the peak of its half turn only. -/
theorem foldsTo_peak_of_qsin_eq (hN : 1 ≤ N) (hN284 : N ≤ 284) (hσ : σ = 1 ∨ σ = -1)
    (hvalue : qsin 32767 t (4 * N) = σ * 32767) : FoldsTo N t N σ := by
  obtain ⟨u, hu, τ, h⟩ := exists_foldsTo hN t
  rw [qsin_of_foldsTo _ hN hu h] at hvalue
  have hfull : τ = σ ∧ qsinQuarter 32767 N u = 32767 := by
    obtain rfl | rfl := h.sign <;> obtain rfl | rfl := hσ <;> omega
  have hpeak : u = N := by
    by_contra hne
    have hlt := qsinQuarter_lt_peak hN284 (lt_of_le_of_ne hu hne)
    omega
  rw [← hfull.1]
  exact hpeak ▸ h

/-- Settles O58: a full value lies at the peak of its half turn, and the peak has it. -/
theorem qsinPeakOnlyAtQuarterTurnUpTo1136 : Obligations.QsinPeakOnlyAtQuarterTurnUpTo1136 := by
  intro N t hN hD
  have hN284 : N ≤ 284 := by omega
  refine ⟨⟨fun h => ?_, fun h => ?_⟩, ⟨fun h => ?_, fun h => ?_⟩⟩
  · exact (foldsTo_peak_of_qsin_eq hN hN284 (.inl rfl) h).emod_of_peak hN
  · rw [qsin_of_emod_eq _ h, qsin_quarter le_rfl hN]
    rfl
  · exact (foldsTo_peak_of_qsin_eq hN hN284 (.inr rfl) h).emod_of_trough hN
  · rw [qsin_of_emod_eq _ h, Nat.cast_mul, Nat.cast_ofNat, qsin_three_quarters le_rfl hN]
    rfl

/-- Refutes O33: at `D = 1140` the angle 286, one step past the quarter turn 285, rounds to the peak as well. -/
theorem not_qsinPeakOnlyAtQuarterTurn : ¬ Obligations.QsinPeakOnlyAtQuarterTurn := by
  intro h
  have hbeside : qsin 32767 286 (4 * 285) = 32767 := by decide +kernel
  exact absurd (h 285 286 (by norm_num) hbeside) (by decide)

end Sys2Proof.Machine
end

section
/-! The words of the samples (41_synthesis_datapath.md R70 to R86): the word of a value within the amplitude loses nothing
and is never `0x8000`, the two forms of a sample agree, and the phase, its widths and the smallest ratios. -/

namespace Sys2Proof.Machine

variable {A N : ℕ} {c : Config} {t u : State} {e : Event} {w : Cmd}

/-! ### The word of a sample -/

theorem symbolValue_le (w : Cmd) : symbolValue w ≤ 3 :=
  Nat.le_of_lt_succ (w.extractLsb' 0 2).isLt

theorem sampleWord_blank (c : Config) (N phase : ℕ) (hw : isBlank w = true) : sampleWord c N phase w = 0#16 := by
  simp [sampleWord, hw]

theorem sampleWord_symbol (c : Config) (N phase : ℕ) (hw : isBlank w = false) :
    sampleWord c N phase w = tc16 (sampleValue c.amplitude N phase (symbolValue w)) := by
  simp [sampleWord, hw]

/-- R82: the values lie in `[-A, A]`, for every ratio and phase. -/
theorem abs_sampleValue_le (A N phase s : ℕ) : |sampleValue A N phase s| ≤ A :=
  abs_qsin_le A _ _

/-- R10: two's complement of 16 bits holds every value of the amplitudes of R7. -/
theorem toInt_tc16 {k : ℤ} (hA : A ≤ 32767) (hk : |k| ≤ A) : (tc16 k).toInt = k := by
  obtain ⟨hlo, hhi⟩ := abs_le.mp hk
  exact BitVec.toInt_ofInt_eq_self (by norm_num) (by norm_num; omega) (by norm_num; omega)

/-- R10: read unsigned, the word is the value's remainder by 65536. -/
theorem toNat_tc16 (k : ℤ) : ((tc16 k).toNat : ℤ) = k % 65536 := by
  rw [tc16, BitVec.toNat_ofInt]
  exact Int.toNat_of_nonneg (Int.emod_nonneg k (by norm_num))

/-- R82: `0x8000` would be the value -32768. -/
theorem sampleWord_ne_fullNegative (hA : c.amplitude ≤ 32767) (N phase : ℕ) (w : Cmd) :
    sampleWord c N phase w ≠ 0x8000#16 := by
  intro heq
  cases hw : isBlank w
  · have hbound := abs_sampleValue_le c.amplitude N phase (symbolValue w)
    have hvalue : sampleValue c.amplitude N phase (symbolValue w) = -32768 := by
      rw [← toInt_tc16 hA hbound, ← sampleWord_symbol c N phase hw, heq]
      rfl
    rw [hvalue] at hbound
    norm_num at hbound
    omega
  · rw [sampleWord_blank c N phase hw] at heq
    exact absurd heq (by decide)

/-- Settles O34: the bound of `QSIN`, and the words of a blank and of a value within the bound. -/
theorem samplesStayInRange : Obligations.SamplesStayInRange := by
  rintro c N phase w ⟨-, -, -, hA⟩ -
  have hbound := abs_sampleValue_le c.amplitude N phase (symbolValue w)
  obtain ⟨hlo, hhi⟩ := abs_le.mp hbound
  refine ⟨hlo, hhi, sampleWord_ne_fullNegative hA N phase w, sampleWord_blank c N phase, fun hw => ?symbol⟩
  case symbol =>
    rw [sampleWord_symbol c N phase hw]
    exact ⟨toInt_tc16 hA hbound, toNat_tc16 _⟩

/-- R82: an event pushes the word of a sample or nothing. -/
theorem EventMove.keeps_noFullNegative (hm : EventMove u e t) (h : u.NoFullNegative) : t.NoFullNegative := by
  obtain ho | ⟨-, -, ho⟩ := hm.out_cases
  · rwa [State.NoFullNegative, ho]
  · rw [State.NoFullNegative, ho, List.forall_mem_append, List.forall_mem_singleton]
    exact ⟨h, sampleWord_ne_fullNegative le_rfl _ _ _⟩

/-- Settles O43: taking an event off the agenda pushes nothing, and no move of the event pushes `0x8000`. -/
theorem stepKeepsSampleRange : Obligations.StepKeepsSampleRange := by
  intro s t h hstep
  obtain ⟨-, rfl⟩ | ⟨e, rest, -, hm⟩ := step_move hstep
  · exact h
  · exact hm.keeps_noFullNegative h

/-! ### The two forms -/

/-- R74, R80: the direct form needs no reduction of the total phase. -/
theorem sampleValue_eq_qsin (A N phase s : ℕ) :
    sampleValue A N phase s = qsin A (4 * phase + s * N : ℕ) (4 * N) :=
  qsin_congr (by rw [totalPhase, Int.natCast_mod, Int.emod_emod])

/-- R79, R80: the cosine is a quarter turn ahead. -/
theorem qcos_eq (A N : ℕ) (t : ℤ) : qcos A t (4 * N) = qsin A (t + N) (4 * N) := by
  rw [qcos, Nat.mul_div_cancel_left N (by norm_num)]

/-- Settles O35: symbol 0 is the sine, 1 the cosine, and 2 and 3 are half a turn after them. -/
theorem iqFormEqualsDirectForm : Obligations.IqFormEqualsDirectForm := by
  intro A N M n s hN hs
  generalize phaseAt M N n = phase
  rw [sampleValue_eq_qsin, sampleValueIQ, qcos_eq]
  obtain rfl | rfl | rfl | rfl : s = 0 ∨ s = 1 ∨ s = 2 ∨ s = 3 := by omega
  · simp [inPhaseWeight, quadratureWeight]
  · simp [inPhaseWeight, quadratureWeight]
  · have hhalf := qsin_add_half A hN (4 * phase : ℕ)
    simpa [inPhaseWeight, quadratureWeight] using hhalf.symm
  · have hhalf := qsin_add_half A hN ((4 * phase : ℕ) + N)
    rw [show ((4 * phase : ℕ) + N + 2 * N : ℤ) = (4 * phase + 3 * N : ℕ) by push_cast; ring] at hhalf
    simpa [inPhaseWeight, quadratureWeight] using hhalf.symm

/-! ### The phase -/

theorem phaseAt_lt (M : ℕ) (hN : 1 ≤ N) (n : ℕ) : phaseAt M N n < N :=
  Nat.mod_lt _ hN

/-- R72: whole symbols before the index leave the phase as it is. -/
theorem phaseAt_add_symbols (M N k n : ℕ) : phaseAt M N (k * N + n) = phaseAt M N n := by
  rw [phaseAt, phaseAt, Nat.mul_add, ← Nat.mul_assoc, Nat.mul_add_mod_self_right]

/-- Settles O36: the phase repeats with the symbol, and the word depends on the index through the phase. -/
theorem phaseIsAbsolute : Obligations.PhaseIsAbsolute := by
  intro c N k n w
  have hphase := phaseAt_add_symbols c.carrierMult N k n
  refine ⟨hphase, by rw [wordOf, wordOf, hphase], ?_, nextPhase_phaseAt _ _ _⟩
  rw [phaseAt, Nat.mul_mod_left]

/-- R74, R83: the total phase before its reduction lies below two turns. -/
theorem totalPhase_lt_two_turns {phase s : ℕ} (hp : phase < N) (hs : s ≤ 3) : 4 * phase + s * N < 2 * (4 * N) := by
  have hsN : s * N ≤ 3 * N := Nat.mul_le_mul_right N hs
  omega

/-- Settles O38: inside a symbol the phase is a remainder by `SPS`, and the index is below `SPS`. -/
theorem datapathNeverOverflows : Obligations.DatapathNeverOverflows := by
  rintro c s ⟨-, hM, -, -⟩ h hb
  have hphase : s.phase.toNat < s.sps.toNat := by
    rw [h.busy_phase hb]
    exact phaseAt_lt _ (h.run_sps (h.busy_run hb)) _
  have htotal := totalPhase_lt_two_turns hphase (symbolValue_le s.cur)
  have hsps := s.sps.isLt
  exact ⟨hphase, by omega, htotal, by omega, fun _ => toNat_add_one_of_lt (h.busy_index hb)⟩

/-! ### The smallest ratios -/

theorem wordOf_symbol (c : Config) (N : ℕ) (hw : isBlank w = false) (n : ℕ) :
    wordOf c N w n = tc16 (qsin c.amplitude (4 * phaseAt c.carrierMult N n + symbolValue w * N : ℕ) (4 * N)) := by
  rw [wordOf, sampleWord_symbol _ _ _ hw, sampleValue_eq_qsin]

/-- R70: a symbol begins at the angle of its quarter turns. -/
theorem wordOf_first (c : Config) (N : ℕ) (hw : isBlank w = false) :
    wordOf c N w 0 = tc16 (qsin c.amplitude (symbolValue w * N : ℕ) (4 * N)) := by
  rw [wordOf_symbol c N hw, phaseAt_zero, Nat.mul_zero, Nat.zero_add]

/-- R86: where the carrier is half a turn on, the value is the first sample's negative. -/
theorem wordOf_half_turn (c : Config) (hN : 1 ≤ N) (hw : isBlank w = false) {n : ℕ}
    (hn : 2 * phaseAt c.carrierMult N n = N) :
    wordOf c N w n = tc16 (-qsin c.amplitude (symbolValue w * N : ℕ) (4 * N)) := by
  rw [wordOf_symbol c N hw, ← qsin_add_half c.amplitude hN]
  congr 2
  push_cast
  omega

/-- R77: the symbols begin at the four quarters of the turn. -/
theorem qsin_symbolAngle (hA : A ≤ 32767) (hN : 1 ≤ N) :
    qsin A (symbolValue 0b000#3 * N : ℕ) (4 * N) = 0 ∧ qsin A (symbolValue 0b001#3 * N : ℕ) (4 * N) = A ∧
    qsin A (symbolValue 0b010#3 * N : ℕ) (4 * N) = 0 ∧ qsin A (symbolValue 0b011#3 * N : ℕ) (4 * N) = -A := by
  refine ⟨?_, ?_, ?_, ?_⟩
  · simpa [symbolValue] using qsin_zero A hN
  · simpa [symbolValue] using qsin_quarter hA hN
  · simpa [symbolValue] using qsin_half A hN
  · simpa [symbolValue] using qsin_three_quarters hA hN

theorem runOf_one (c : Config) (hw : isBlank w = false) :
    runOf c 1 w = [tc16 (qsin c.amplitude (symbolValue w * 1 : ℕ) (4 * 1))] := by
  rw [← wordOf_first c 1 hw]
  rfl

theorem runOf_two (hM : c.carrierMult = 1) (hw : isBlank w = false) :
    runOf c 2 w = [tc16 (qsin c.amplitude (symbolValue w * 2 : ℕ) (4 * 2)),
      tc16 (-qsin c.amplitude (symbolValue w * 2 : ℕ) (4 * 2))] := by
  have hhalf : 2 * phaseAt c.carrierMult 2 1 = 2 := by rw [hM]; rfl
  rw [← wordOf_first c 2 hw, ← wordOf_half_turn c (by norm_num) hw hhalf]
  rfl

/-- Settles O37: one sample to the symbol is the first one, and the second of two is its negative. -/
theorem smallestRatios : Obligations.SmallestRatios := by
  rintro c ⟨-, -, -, hA⟩
  obtain ⟨h0, h1, h2, h3⟩ := qsin_symbolAngle hA (N := 1) le_rfl
  refine ⟨?_, ?_, ?_, ?_, fun hM => ?two⟩
  · rw [runOf_one c rfl, h0]; rfl
  · rw [runOf_one c rfl, h1]
  · rw [runOf_one c rfl, h2]; rfl
  · rw [runOf_one c rfl, h3]
  case two =>
    obtain ⟨h0, h1, h2, h3⟩ := qsin_symbolAngle hA (N := 2) (by norm_num)
    refine ⟨?_, ?_, ?_, ?_⟩
    · rw [runOf_two hM rfl, h0]; rfl
    · rw [runOf_two hM rfl, h2]; rfl
    · rw [runOf_two hM rfl, h1]
    · rw [runOf_two hM rfl, h3, neg_neg]

end Sys2Proof.Machine
end

section
/-! The account of `OUT` (42_symbol_commands.md R96, R97): where a run begins the account is empty, a word taken begins
a symbol of no samples, an emit adds the word of the current sample, and no other move touches it. -/

namespace Sys2Proof.Machine

variable {c : Config} {s t u : State} {i : Instr} {e : Event}

/-! ### The moves that touch the account -/

/-- R34: where a run begins, no word is taken and nothing is pushed. -/
theorem State.outputInv_of_run_begins (hb : t.busy = false) (htaken : t.taken = [])
    (hbase : t.runBase = t.out.length) : t.OutputInv c where
  base_le := hbase.le
  between := fun _ => by rw [htaken, hbase, List.drop_length]; rfl
  within := fun hb' => by simp [hb] at hb'

/-- R88: a word taken is the last of the words taken, and none of its samples is pushed yet. -/
theorem State.OutputInv.takeWord (h : s.OutputInv c) (hr : s.symReady = true) (w : Cmd) :
    (s.takeWord w).OutputInv c where
  base_le := h.base_le
  between := nofun
  within := fun _ => ⟨s.taken, rfl, by simpa using h.between (State.symReady_iff.mp hr).2⟩

/-- R90: the first `n + 1` words of a run are the first `n` and the word of sample `n`. -/
theorem take_runOf_succ {N n : Nat} (hn : n < N) (c : Config) (w : Cmd) :
    (runOf c N w).take (n + 1) = (runOf c N w).take n ++ [wordOf c N w n] := by
  simp [runOf, ← List.map_take, List.take_range, hn.le, Nat.succ_le_of_lt hn, List.range_succ]

/-- R42: a word pushed comes after what the run has pushed. -/
theorem State.OutputInv.drop_pushSample (h : s.OutputInv c) (x : Sample) :
    (s.pushSample x).out.drop s.runBase = s.out.drop s.runBase ++ [x] :=
  List.drop_append_of_le_length h.base_le

/-- R89, R97: an emit adds the word of sample `NIDX` to the account of the command in progress. -/
theorem State.OutputInv.pushSample_within (h : s.OutputInv c) (hr : s.RegistersInv c) (hb : s.busy = true) :
    ∃ ws, s.taken = ws ++ [s.cur] ∧ (s.pushSample (s.nextSample c)).out.drop s.runBase =
      modulate c s.sps.toNat ws ++ (runOf c s.sps.toNat s.cur).take (s.nidx.toNat + 1) := by
  obtain ⟨ws, htaken, hout⟩ := h.within hb
  refine ⟨ws, htaken, ?_⟩
  rw [h.drop_pushSample, hout, hr.nextSample_eq_wordOf hb, take_runOf_succ (hr.busy_index hb), List.append_assoc]

theorem State.OutputInv.base_le_pushSample (h : s.OutputInv c) (x : Sample) :
    s.runBase ≤ (s.pushSample x).out.length :=
  h.base_le.trans (by simp)

/-- R89: the last sample completes the run of the command in progress. -/
theorem State.OutputInv.emitLast (h : s.OutputInv c) (hr : s.RegistersInv c) (hb : s.busy = true)
    (hl : s.nidx.toNat + 1 = s.sps.toNat) : (s.pushSample (s.nextSample c)).finishSymbol.OutputInv c where
  base_le := h.base_le_pushSample _
  between := fun _ => by
    obtain ⟨ws, htaken, hout⟩ := h.pushSample_within hr hb
    rw [hl, List.take_of_length_le (by simp), ← modulate_append_singleton, ← htaken] at hout
    exact hout
  within := nofun

/-- R89: after any other sample `NIDX` counts it. -/
theorem State.OutputInv.emitMore (h : s.OutputInv c) (hr : s.RegistersInv c) (hb : s.busy = true) :
    (s.emitMore c).OutputInv c where
  base_le := h.base_le_pushSample _
  between := fun hb' => Bool.noConfusion (hb.symm.trans hb')
  within := fun _ => by
    rw [hr.emitMore_nidx hb]
    exact h.pushSample_within hr hb

/-! ### Every step keeps the account -/

/-- What an instruction does keeps the account; the exception is raised in `IDLE`, where no symbol is in progress. -/
theorem InstrMove.keeps_outputInv (hm : InstrMove s i t) (hr : s.RegistersInv c) (h : s.OutputInv c) :
    t.OutputInv c := by
  cases hm with
  | nothing => exact h
  | take w _ hready => exact h.takeWord hready w
  | read _ _ => exact { h with }
  | sampleRate _ _ => exact { h with }
  | symbolRate _ _ => exact { h with }
  | begin _ _ _ => exact State.outputInv_of_run_begins rfl rfl rfl
  | raise _ hi _ => exact State.outputInv_of_run_begins (hr.not_busy (by simp [hi])) rfl rfl
  | stopLater _ _ _ => exact { h with }
  | stopNow _ _ _ => exact { h with }
  | reset _ => exact State.outputInv_of_run_begins rfl rfl rfl

/-- What an event does keeps the account, with the samples of the machine as it is built. -/
theorem EventMove.keeps_outputInv (hm : EventMove u e t) (hr : u.RegistersInv Config.hardware)
    (h : u.OutputInv Config.hardware) : t.OutputInv Config.hardware := by
  cases hm with
  | nothing => exact h
  | reset => exact State.outputInv_of_run_begins rfl rfl rfl
  | host _ hi => exact hi.keeps_outputInv hr h
  | bus _ _ _ hi => exact hi.keeps_outputInv hr h
  | emitLast hb hl => exact h.emitLast hr hb hl
  | emitMore hb _ => exact h.emitMore hr hb
  | take w ws _ hready => exact State.OutputInv.takeWord (s := u.setSource ws) { h with } hready w
  | source _ => exact { h with }

/-- Settles O42: taking an event off the agenda keeps the relations and the account, and every move of the event keeps
the account. -/
theorem stepKeepsOutputAccount : Obligations.StepKeepsOutputAccount := by
  intro s t hr h hstep
  obtain ⟨-, rfl⟩ | ⟨e, rest, -, hm⟩ := step_move hstep
  · exact h
  · exact hm.keeps_outputInv (hr.setAgenda rest) { h with }

/-! ### What the account says of `OUT` -/

/-- Settles O44: by its closed form the account is the beginning of `modulate`, which is long enough. -/
theorem outputIsPrefixOfModulate : Obligations.OutputIsPrefixOfModulate := by
  intro c s hr h
  refine ⟨h.out_drop_eq_take hr ▸ List.take_prefix _ _, ?length⟩
  case length =>
    cases hb : s.busy
    case false => simp [h.between hb, hr.rest_index hb]
    case true =>
      obtain ⟨ws, htaken, hout⟩ := h.within hb
      simp [hout, htaken, (hr.busy_index hb).le]

end Sys2Proof.Machine
end

section
/-! The command words (42_symbol_commands.md R88 to R96): what each word's instruction and each emit do in one step, what
a word and its `SPS` emits do together, and what a stream of words does over the run of the machine. -/

namespace Sys2Proof.Machine

variable {c : Config} {s t : State} {i : Instr} {w : Cmd}

/-! ### Accept -/

/-- R52, R54: the instruction whose word arrives on the symbol port is the one decoded from that word. -/
theorem eq_decodeSymbol_of_encode (he : encode i = .sym w) : i = decodeSymbol w := by
  have hi : i.WellFormed := by
    cases i with
    | srst | stop | start | ctrlNop | wrRsvd => cases he
    | _ => rfl
  calc i = decode (encode i) := (decodeEncodeRoundTrip i hi).symm
    _ = decodeSymbol w := by rw [he, decode]

/-- R88: a ready block takes the word. -/
theorem exec_command_ready (he : encode i = .sym w) (hr : s.symReady = true) : exec i s = .next (s.takeWord w) := by
  rw [eq_decodeSymbol_of_encode he, exec_decodeSymbol, State.acceptCommand_ready w hr]

/-- R88: a block that is not ready lets the word wait. -/
theorem exec_command_wait (he : encode i = .sym w) (hr : s.symReady = false) : exec i s = .next s := by
  rw [eq_decodeSymbol_of_encode he, exec_decodeSymbol, State.acceptCommand_wait w hr]

/-- Settles O19: each of the five instructions accepts its own word, or lets it wait. -/
theorem commandWordIsAcceptedOrWaits : Obligations.CommandWordIsAcceptedOrWaits := by
  refine fun s low => ⟨fun hm hb => ?ready, fun hwait => ?wait⟩
  case ready =>
    have hr : s.symReady = true := State.symReady_iff.mpr ⟨hm, hb⟩
    exact ⟨exec_command_ready rfl hr, exec_command_ready rfl hr, exec_command_ready rfl hr,
      exec_command_ready rfl hr, exec_command_ready rfl hr⟩
  case wait =>
    have hr : s.symReady = false := State.symReady_false_iff.mpr hwait
    exact ⟨exec_command_wait rfl hr, exec_command_wait rfl hr, exec_command_wait rfl hr,
      exec_command_wait rfl hr, exec_command_wait rfl hr⟩

/-! ### Emit -/

/-- Settles O20: the three cases of the emit step, with the last sample told by its index as an integer (R10). -/
theorem emitStepPushesOneSample : Obligations.EmitStepPushesOneSample :=
  fun c _ => ⟨State.emitSample_wait c,
    fun hb hl => State.emitSample_last c hb (by omega),
    fun hb hl => State.emitSample_more c hb (by omega)⟩

/-! ### Events that run no instruction -/

/-- R41, R88: with nothing left to offer, an offer is a wait. -/
theorem perform_sourceOffers_nil (hs : s.source = []) : perform .sourceOffers s = .next s := by
  simp [perform, hs]

/-- Settles O8: a step performs the first event of the agenda, and each of these events has its own answer. -/
theorem stepPerformsOtherEvents : Obligations.StepPerformsOtherEvents := by
  refine ⟨fun s ha => by rw [step, nextStep, ha], fun s rest ha => step_agenda ha, fun s rest ha => step_agenda ha,
    fun s rest ha hwait => ?offer, fun s ws rest ha => step_agenda ha, fun s a r rest ha hbus => ?refused⟩
  case offer =>
    rw [step_agenda ha]
    obtain hs | hr := hwait
    · exact perform_sourceOffers_nil hs
    · exact perform_sourceOffers_wait hr
  case refused => exact (step_agenda ha).trans (perform_bus_error hbus)

/-! ### A command and its emits -/

/-- `s` with other rates and another cause. -/
def State.setRatesAndCause (sr yr : Word) (k : Cause) (s : State) : State :=
  { s with sampleRate := sr, symbolRate := yr, cause := k }

/-- R89: the emit step neither reads nor writes the rates and `CAUSE`. -/
theorem State.commute_setRatesAndCause_emitSample (c : Config) (sr yr : Word) (k : Cause) :
    Function.Commute (State.setRatesAndCause sr yr k) (State.emitSample c) := fun s => by
  simp only [State.emitSample, apply_ite (State.setRatesAndCause sr yr k)]
  rfl

/-- R89: the emit step neither reads nor writes what is still to happen. -/
theorem State.commute_setAgenda_emitSample (c : Config) (es : List Event) :
    Function.Commute (State.setAgenda es) (State.emitSample c) := fun s => by
  simp only [State.emitSample, apply_ite (State.setAgenda es)]
  rfl

theorem State.emitSamples_eq_iterate (c : Config) (n : Nat) (s : State) :
    s.emitSamples c n = (State.emitSample c)^[n] s := by
  induction n generalizing s with
  | zero => rfl
  | succ n ih => rw [State.emitSamples, ih, Function.iterate_succ_apply]

/-- What commutes with one emit commutes with several. -/
theorem State.emitSamples_commute {f : State → State} (hf : Function.Commute f (State.emitSample c)) (n : Nat)
    (s : State) : (f s).emitSamples c n = f (s.emitSamples c n) := by
  simpa only [State.emitSamples_eq_iterate] using (hf.iterate_right n s).symm

/-- R36: after a word is taken in `RUN`, the relations that speak of index and phase hold; rates whose quotient is
`SPS`, and no cause, complete them. -/
theorem State.takeWord_setRatesAndCause_registersInv (c : Config) (w : Cmd) (hm : s.mode = .run)
    (hN : 1 ≤ s.sps.toNat) : ((s.takeWord w).setRatesAndCause s.sps 1#32 .none).RegistersInv c where
  busy_run := fun _ => hm
  stop_busy := fun _ => rfl
  run_sps := fun _ => hN
  run_quotient := fun _ => (Nat.div_one _).symm
  run_exact := fun _ => Nat.mod_one _
  busy_index := fun _ => hN
  busy_phase := fun _ => (phaseAt_zero _ _).symm
  rest_index := nofun
  rest_phase := nofun
  cause_fault := by simp [State.setRatesAndCause, hm]

/-- R90: after a word is taken, `SPS` emits push its run and end the symbol. -/
theorem State.emitSamples_takeWord (c : Config) (w : Cmd) (hm : s.mode = .run) (hN : 1 ≤ s.sps.toNat) :
    (s.takeWord w).emitSamples c s.sps.toNat = ((s.takeWord w).pushSamples (runOf c s.sps.toNat w)).finishSymbol := by
  have hrest := (State.takeWord_setRatesAndCause_registersInv c w hm hN).emitSamples_rest rfl (Nat.zero_add s.sps.toNat)
  have hrates := congrArg (State.setRatesAndCause s.sampleRate s.symbolRate s.cause) hrest
  rwa [← State.emitSamples_commute (State.commute_setRatesAndCause_emitSample c _ _ _)] at hrates

/-- R90: the effect of a command word with the run `xs`: `CUR` is the word, the run is pushed, and the block is between
symbols again. -/
def State.completeCommand (w : Cmd) (xs : List Sample) (s : State) : State :=
  { s with cur := w, nidx := 0#32, phase := 0#32, out := s.out ++ xs, taken := s.taken ++ [w] }

/-- R90: without a pending stop, a word taken and its `SPS` emits have the effect of the command. -/
theorem State.emitSamples_takeWord_eq_completeCommand (c : Config) (w : Cmd) (hm : s.mode = .run)
    (hb : s.busy = false) (hp : s.stopPending = false) (hN : 1 ≤ s.sps.toNat) :
    (s.takeWord w).emitSamples c s.sps.toNat = s.completeCommand w (runOf c s.sps.toNat w) := by
  rw [State.emitSamples_takeWord c w hm hN]
  simp [State.finishSymbol, State.pushSamples, State.takeWord, State.completeCommand, hb, hp]

/-- Settles O21: the block is ready, so the word is taken, and its emits complete the command with its run, which the
statement writes out. -/
theorem commandPushesItsRun : Obligations.CommandPushesItsRun := by
  intro c i w s he hm hb hp hN
  exact ⟨s.takeWord w, exec_command_ready he (State.symReady_iff.mpr ⟨hm, hb⟩),
    State.emitSamples_takeWord_eq_completeCommand c w hm hb hp hN⟩

/-! ### A stream of commands -/

/-- A run that goes on after its first `m` steps. -/
theorem runSteps_add {m : Nat} (n : Nat) (h : runSteps m s = .next t) : runSteps (m + n) s = runSteps n t := by
  induction m generalizing s with
  | zero => cases h; rw [Nat.zero_add]
  | succ m ih =>
    rw [Nat.succ_add]
    cases hs : step s with
    | next u => simpa [runSteps, hs] using ih (by simpa [runSteps, hs] using h)
    | fault r => simp [runSteps, hs] at h
    | refused r => simp [runSteps, hs] at h

/-- R89: while the sink is ready, each step is an emit. -/
theorem runSteps_sinkReady {n : Nat} {rest : List Event} (ha : s.agenda = List.replicate n .sinkReady ++ rest) :
    runSteps n s = .next ((s.emitSamples Config.hardware n).setAgenda rest) := by
  induction n generalizing s with
  | zero => obtain rfl : s.agenda = rest := ha; rfl
  | succ n ih =>
    have hcomm := State.commute_setAgenda_emitSample Config.hardware (List.replicate n .sinkReady ++ rest)
    calc runSteps (n + 1) s
      _ = runSteps n ((s.setAgenda (List.replicate n .sinkReady ++ rest)).emitSample Config.hardware) :=
        runSteps_succ n ha rfl
      _ = runSteps n ((s.emitSample Config.hardware).setAgenda (List.replicate n .sinkReady ++ rest)) := by
        rw [hcomm.eq s]
      _ = .next ((s.emitSamples Config.hardware (n + 1)).setAgenda rest) := by
        rw [ih rfl, State.emitSamples_commute hcomm]
        rfl

/-- R90: after a word is taken, the sink ready `SPS` times completes the command. -/
theorem runSteps_takeWord {rest : List Event} (w : Cmd) (hm : s.mode = .run) (hb : s.busy = false)
    (hp : s.stopPending = false) (hN : 1 ≤ s.sps.toNat)
    (ha : s.agenda = List.replicate s.sps.toNat .sinkReady ++ rest) :
    runSteps s.sps.toNat (s.takeWord w) =
      .next ((s.completeCommand w (runOf Config.hardware s.sps.toNat w)).setAgenda rest) := by
  rw [runSteps_sinkReady (s := s.takeWord w) ha,
    State.emitSamples_takeWord_eq_completeCommand Config.hardware w hm hb hp hN]

/-- R90, R112: a word offered to a ready block and the sink ready `SPS` times are `SPS + 1` steps with the effect of the
command. -/
theorem runSteps_command {ws : List Cmd} {rest : List Event} (hm : s.mode = .run) (hb : s.busy = false)
    (hp : s.stopPending = false) (hN : 1 ≤ s.sps.toNat) (hs : s.source = w :: ws)
    (ha : s.agenda = commandEvents s.sps.toNat ++ rest) :
    runSteps (s.sps.toNat + 1) s =
      .next (((s.setSource ws).setAgenda rest).completeCommand w (runOf Config.hardware s.sps.toNat w)) := by
  have hr : s.symReady = true := State.symReady_iff.mpr ⟨hm, hb⟩
  have hoffer := perform_sourceOffers_take (s := s.setAgenda (List.replicate s.sps.toNat .sinkReady ++ rest)) hs hr
  rw [runSteps_succ _ ha hoffer]
  exact runSteps_takeWord (s := (s.setAgenda (List.replicate s.sps.toNat Event.sinkReady ++ rest)).setSource ws)
    (rest := rest) w hm hb hp hN rfl

/-- R36: between symbols a command leaves the relations as they are. -/
theorem State.RegistersInv.completeCommand (h : s.RegistersInv c) (hb : s.busy = false) (w : Cmd) (xs : List Sample) :
    (s.completeCommand w xs).RegistersInv c :=
  { h with
    busy_index := fun hb' => Bool.noConfusion (hb.symm.trans hb')
    busy_phase := fun hb' => Bool.noConfusion (hb.symm.trans hb')
    rest_index := fun _ => rfl
    rest_phase := fun _ => rfl }

/-- R96: the events of a stream are those of its first command, then those of the others. -/
theorem streamEvents_succ (n l : Nat) : streamEvents n (l + 1) = commandEvents n ++ streamEvents n l := by
  simp [streamEvents, List.replicate_succ]

/-- R96: the run of the first command comes before the others. -/
theorem modulate_cons (c : Config) (N : Nat) (w : Cmd) (ws : List Cmd) :
    modulate c N (w :: ws) = runOf c N w ++ modulate c N ws :=
  List.flatMap_cons

/-- Settles O46, by induction on the words: the first command leaves the relations as they are, so the rest of the
stream goes on from there. -/
theorem streamPushesModulate : Obligations.StreamPushesModulate := by
  intro s ws
  induction ws generalizing s with
  | nil =>
    intro left more h hm hb hs ha
    obtain rfl : s.source = left := hs
    obtain rfl : s.agenda = more := ha
    simp [runSteps, modulate]
  | cons w ws ih =>
    intro left more h hm hb hs ha
    have hfirst : runSteps (s.sps.toNat + 1) s = .next
        (((s.setSource (ws ++ left)).setAgenda (streamEvents s.sps.toNat ws.length ++ more)).completeCommand w
          (runOf Config.hardware s.sps.toNat w)) :=
      runSteps_command hm hb (h.not_stopPending hb) (h.run_sps hm) hs
        (by rw [ha, List.length_cons, streamEvents_succ, List.append_assoc])
    have hinv := ((h.setSource (ws ++ left)).setAgenda (streamEvents s.sps.toNat ws.length ++ more)).completeCommand
      hb w (runOf Config.hardware s.sps.toNat w)
    rw [List.length_cons, Nat.succ_mul, Nat.add_comm, runSteps_add _ hfirst, List.getLastD_cons, modulate_cons]
    refine (ih _ left more hinv hm hb rfl rfl).trans ?_
    simp [State.completeCommand, State.setSource, State.setAgenda, h.rest_index hb, h.rest_phase hb]

end Sys2Proof.Machine
end

section
/-! The words of the four symbols and of a blank (42_symbol_commands.md R91 to R95): the phase formula of each symbol,
its first sample, the symbols that are half a turn apart, and the silence of a blank. -/

namespace Sys2Proof.Machine

variable {N : Nat} {w v : Cmd}

/-! ### Symbols -/

/-- Settles O23: the symbol's quarter turns are 0, 1, 2 and 3. -/
theorem symbolWordFormulas : Obligations.SymbolWordFormulas := by
  intro c N n _
  refine ⟨?_, ?_, ?_, ?_⟩
  · simpa [phaseAt, symbolValue] using wordOf_symbol c N (w := 0b000#3) rfl n
  · simpa [phaseAt, symbolValue] using wordOf_symbol c N (w := 0b001#3) rfl n
  · exact wordOf_symbol c N rfl n
  · exact wordOf_symbol c N rfl n

/-- Settles O24: a symbol begins at the angle of its quarter turns. -/
theorem firstSamplesOfSymbols : Obligations.FirstSamplesOfSymbols := by
  rintro c N ⟨-, -, -, hA⟩ hN
  obtain ⟨h0, h1, h2, h3⟩ := qsin_symbolAngle hA hN
  refine ⟨?_, ?_, ?_, ?_⟩
  · rw [wordOf_first c N rfl, h0]; rfl
  · rw [wordOf_first c N rfl, h1]
  · rw [wordOf_first c N rfl, h2]; rfl
  · rw [wordOf_first c N rfl, h3]

/-- R10: the word of the negative value is the two's complement negative. -/
theorem tc16_neg (k : ℤ) : tc16 (-k) = -tc16 k :=
  BitVec.ofInt_neg

/-- R93, R94: two quarter turns more are half a turn, so every sample has the other sign. -/
theorem wordOf_opposite (c : Config) (hN : 1 ≤ N) (hv : isBlank v = false) (hw : isBlank w = false)
    (h : symbolValue v = symbolValue w + 2) (n : ℕ) : wordOf c N v n = -wordOf c N w n := by
  rw [wordOf_symbol c N hv, wordOf_symbol c N hw, ← tc16_neg, ← qsin_add_half c.amplitude hN, h]
  congr 2
  push_cast
  ring

/-- Settles O25: symbol 2 is two quarter turns after symbol 0, and symbol 3 after symbol 1. -/
theorem oppositeSymbolsAreNegatives : Obligations.OppositeSymbolsAreNegatives :=
  fun c _ n hN => ⟨wordOf_opposite c hN rfl rfl rfl n, wordOf_opposite c hN rfl rfl rfl n⟩

/-! ### Blanks -/

/-- R52: bit 2 alone makes a blank. -/
theorem isBlank_blank (low : BitVec 2) : isBlank (1#1 ++ low) = true := by
  revert low
  decide

/-- R95: each of a blank's `N` words is 0. -/
theorem runOf_blank (c : Config) (N : Nat) (hw : isBlank w = true) : runOf c N w = List.replicate N 0x0000#16 := by
  have hword : wordOf c N w = fun _ => 0x0000#16 := funext fun _ => sampleWord_blank c N _ hw
  rw [runOf, hword, List.map_const', List.length_range]

/-- Settles O26: whatever its two low bits, the word is a blank. -/
theorem blankRunIsSilence : Obligations.BlankRunIsSilence :=
  fun c N low => runOf_blank c N (isBlank_blank low)

end Sys2Proof.Machine
end

section
/-! The exceptions (60_exceptions.md R104 to R106, R110): in `FAULT` only a reset moves the block, one instruction, one
step and any number of steps long; and a change of `MODE` is a row of the table of mode transitions. -/

namespace Sys2Proof.Machine

variable {s t u : State} {i : Instr} {e : Event} {v : Word} {xs : List Sample}

/-! ### In `FAULT` -/

/-- R105: in `FAULT` no instruction but `SRST` makes a move, a read apart. -/
theorem InstrMove.frame_of_fault (hm : InstrMove s i t) (hf : s.mode = .fault) (hi : ∀ v, i ≠ .srst v) :
    { t with reads := s.reads } = s := by
  have hidle : s.mode ≠ .idle := by simp [hf]
  have hrun : s.mode ≠ .run := by simp [hf]
  cases hm with
  | nothing => rfl
  | take _ _ h => exact absurd (State.symReady_iff.mp h).1 hrun
  | read _ _ => rfl
  | sampleRate _ h => exact absurd h hidle
  | symbolRate _ h => exact absurd h hidle
  | begin _ h _ => exact absurd h hidle
  | raise _ h _ => exact absurd h hidle
  | stopLater _ h _ => exact absurd h hrun
  | stopNow _ h _ => exact absurd h hrun
  | reset v => exact absurd rfl (hi v)

/-- Settles O18: every move of an instruction in `FAULT` is `SRST`'s or leaves all but the reads. -/
theorem faultIgnoresAllButReset : Obligations.FaultIgnoresAllButReset :=
  fun _ _ _ hf hi h => (exec_move h).frame_of_fault hf hi

/-- An instruction's frame in `FAULT`, for the event that brings it. -/
theorem InstrMove.frame_of_fault_hostInstr (hm : InstrMove u i t) (hi : e.hostInstr = some i) (hf : u.mode = .fault)
    (he : e.isReset = false) : { t with source := u.source, reads := u.reads } = u :=
  congrArg (State.setSource u.source) (hm.frame_of_fault hf (Event.hostInstr_ne_srst he hi))

/-- R105: in `FAULT` an event that is no reset changes at most the reads and what the source will offer. Without `BUSY`
there is nothing to emit. -/
theorem EventMove.frame_of_fault (hm : EventMove u e t) (hf : u.mode = .fault) (hb : u.busy = false)
    (he : e.isReset = false) : { t with source := u.source, reads := u.reads } = u := by
  cases hm with
  | nothing => rfl
  | reset => cases he
  | host op hi => exact hi.frame_of_fault_hostInstr (Event.hostInstr_host op) hf he
  | bus _ _ hbus hi => exact hi.frame_of_fault_hostInstr (Event.hostInstr_bus hbus) hf he
  | emitLast h _ => simp [hb] at h
  | emitMore h _ => simp [hb] at h
  | take _ _ _ h => simp [(State.symReady_iff.mp h).1] at hf
  | source _ => rfl

/-- R36 (b): in `FAULT` the block is not inside a symbol. -/
theorem State.RegistersInv.not_busy_of_fault {c : Config} (h : s.RegistersInv c) (hf : s.mode = .fault) :
    s.busy = false :=
  h.not_busy (by simp [hf])

/-- Settles O48: the event's frame in `FAULT`, with the agenda put back. -/
theorem faultIsSticky : Obligations.FaultIsSticky := by
  intro s t e rest h ha hf he hstep
  rw [step_agenda ha] at hstep
  have hframe := (perform_move hstep).frame_of_fault hf (h.not_busy_of_fault hf) he
  exact congrArg (State.setAgenda s.agenda) hframe

/-! ### Any number of steps in `FAULT` -/

/-- In `FAULT` with no reset to come, `xs` pushed so far. -/
structure State.FaultLasts (xs : List Sample) (s : State) : Prop where
  registers : s.RegistersInv Config.hardware
  fault : s.mode = .fault
  noReset : ∀ e ∈ s.agenda, e.isReset = false
  out_eq : s.out = xs

/-- R105: with no reset to come, a step from `FAULT` pushes nothing and ends in `FAULT`, and no reset is to come. -/
theorem State.FaultLasts.step (h : s.FaultLasts xs) (hstep : step s = .next t) : t.FaultLasts xs := by
  obtain ⟨-, rfl⟩ | ⟨e, rest, ha, hm⟩ := step_move hstep
  · exact h
  · have he : e.isReset = false := h.noReset e (by simp [ha])
    have hframe := hm.frame_of_fault h.fault (h.registers.not_busy_of_fault h.fault) he
    have hagenda : t.agenda = rest := congrArg State.agenda hframe
    exact {
      registers := stepKeepsRegisterRelations s t h.registers hstep
      fault := (congrArg State.mode hframe).trans h.fault
      noReset := fun e' he' => h.noReset e' (by rw [ha, ← hagenda]; exact .tail e he')
      out_eq := (congrArg State.out hframe).trans h.out_eq }

/-- What every step keeps, a run of steps keeps. -/
theorem runSteps_keeps {P : State → Prop} (hP : ∀ {s t}, P s → step s = .next t → P t) {k : Nat} (h : P s)
    (hrun : runSteps k s = .next t) : P t := by
  induction k generalizing s with
  | zero => cases hrun; exact h
  | succ k ih =>
    cases hs : step s with
    | next u => exact ih (hP h hs) (by simpa [runSteps, hs] using hrun)
    | fault r => simp [runSteps, hs] at hrun
    | refused r => simp [runSteps, hs] at hrun

/-- Settles O49: every step keeps `FAULT`, its relations and `OUT`. -/
theorem failedStartPushesNothing : Obligations.FailedStartPushesNothing := by
  intro k s t h hf hreset hrun
  have hlasts : t.FaultLasts s.out := runSteps_keeps State.FaultLasts.step ⟨h, hf, hreset, rfl⟩ hrun
  exact ⟨hlasts.out_eq, hlasts.fault⟩

/-! ### The table of mode transitions -/

theorem Event.isReset_of_hostInstr (hi : e.hostInstr = some (.srst v)) : e.isReset = true := by
  simp [Event.isReset, hi]

theorem Event.isStart_of_hostInstr (hi : e.hostInstr = some (.start v)) : e.isStart = true := by
  simp [Event.isStart, hi]

theorem Event.isStop_of_hostInstr (hi : e.hostInstr = some (.stop v)) : e.isStop = true := by
  simp [Event.isStop, hi]

/-- R106: the rows of the table, from `s` by the event `e` to `t`. -/
def State.ModeTransition (s : State) (e : Event) (t : State) : Prop :=
  (e.isReset = true ∧ t.mode = .idle) ∨
  (s.mode = .idle ∧ e.isStart = true ∧ s.configurationCheck = .none ∧ t.mode = .run) ∨
  (s.mode = .idle ∧ e.isStart = true ∧ s.configurationCheck ≠ .none ∧ t.mode = .fault) ∨
  (s.mode = .run ∧ e.isStop = true ∧ s.busy = false ∧ t.mode = .idle) ∨
  (s.mode = .run ∧ e = .sinkReady ∧ s.busy = true ∧ s.nidx.toNat + 1 = s.sps.toNat ∧
    s.stopPending = true ∧ t.mode = .idle)

/-- An instruction that changes `MODE` is `SRST`, `START` or `STOP`, each in its row. -/
theorem InstrMove.modeTransition (hm : InstrMove u i t) (hi : e.hostInstr = some i) (hne : t.mode ≠ u.mode) :
    u.ModeTransition e t := by
  cases hm with
  | begin _ h hc => exact .inr (.inl ⟨h, Event.isStart_of_hostInstr hi, hc, rfl⟩)
  | raise _ h hc => exact .inr (.inr (.inl ⟨h, Event.isStart_of_hostInstr hi, hc, rfl⟩))
  | stopNow _ h hb => exact .inr (.inr (.inr (.inl ⟨h, Event.isStop_of_hostInstr hi, hb, rfl⟩)))
  | reset _ => exact .inl ⟨Event.isReset_of_hostInstr hi, rfl⟩
  | _ => exact absurd rfl hne

/-- R89: the last sample of a symbol changes `MODE` only when a stop is pending. -/
theorem State.stopPending_of_finishSymbol_mode_ne (hne : s.finishSymbol.mode ≠ s.mode) : s.stopPending = true := by
  by_contra hp
  simp [hp] at hne

/-- An event that changes `MODE` is a reset, brings an instruction that changes it, or ends a symbol with a stop
pending, which is in `RUN` by the relations. -/
theorem EventMove.modeTransition (hm : EventMove u e t) (h : u.RegistersInv Config.hardware)
    (hne : t.mode ≠ u.mode) : u.ModeTransition e t := by
  cases hm with
  | reset => exact .inl ⟨rfl, rfl⟩
  | host op hi => exact hi.modeTransition (Event.hostInstr_host op) hne
  | bus _ _ hbus hi => exact hi.modeTransition (Event.hostInstr_bus hbus) hne
  | emitLast hb hl =>
    have hp : u.stopPending = true := State.stopPending_of_finishSymbol_mode_ne hne
    exact .inr (.inr (.inr (.inr ⟨h.busy_run hb, rfl, hb, hl, hp, by simp [hp]⟩)))
  | _ => exact absurd rfl hne

/-- No row of the table reads the agenda. -/
theorem State.modeTransition_setAgenda {es : List Event} :
    (s.setAgenda es).ModeTransition e t ↔ s.ModeTransition e t :=
  Iff.rfl

/-- Settles O47: the event's row in the state with the rest of the agenda is the step's. -/
theorem modeChangesOnlyByTable : Obligations.ModeChangesOnlyByTable := by
  intro s t e rest h ha hstep hne
  rw [step_agenda ha] at hstep
  exact State.modeTransition_setAgenda.mp ((perform_move hstep).modeTransition (h.setAgenda rest) hne)

end Sys2Proof.Machine
end

section
/-! Reset, start-up and whole runs (70_reset_and_hazards.md R107, R109, R113): the registers after reset, the start-up
sequence from any state, a run from its `START` to its end, and the word that the next step is made to take. -/

namespace Sys2Proof.Machine

variable {s : State}

/-! ### Reset -/

/-- Settles O39: each conjunct is a field of `State.reset`, or an output computed from its `MODE` and `BUSY`. -/
theorem resetState : Obligations.ResetState :=
  ⟨rfl, rfl, rfl, rfl, rfl, rfl, rfl, rfl, rfl, rfl, rfl, rfl, rfl, rfl⟩

/-! ### `START` as an event -/

/-- R63, R100: the check passes exactly when, in the integers of R10, both rates are positive and the ratio is exact. -/
theorem State.configurationCheck_eq_none_iff : s.configurationCheck = .none ↔
    s.symbolRate.toNat ≠ 0 ∧ s.sampleRate.toNat ≠ 0 ∧ s.sampleRate.toNat % s.symbolRate.toNat = 0 := by
  rw [State.configurationCheck_none]
  simp [BitVec.toNat_eq]

/-- R63: a host's `START` in `IDLE` begins a run when the check passes. -/
theorem perform_start_begins {op : HostOp} {v : Word} (hop : decodeHost op = .start v) (hm : s.mode = .idle)
    (hc : s.configurationCheck = .none) : perform (.host op) s = .next s.beginRun := by
  rw [perform, hop, exec_start_begins hm hc]

/-- R63, R104: a host's `START` in `IDLE` raises what the check finds. -/
theorem perform_start_raises {op : HostOp} {v : Word} (hop : decodeHost op = .start v) (hm : s.mode = .idle)
    (hc : s.configurationCheck ≠ .none) :
    perform (.host op) s = .next (s.raiseConfigurationError s.configurationCheck) := by
  rw [perform, hop, exec_start_raises _ hm rfl hc]

/-! ### A whole run -/

/-- R113: the state at the end of the run that a `START` in `s` begins, when the run takes the words `ws`, pushes the
samples `xs` and leaves the words `left` with the source. -/
def State.finishedRun (ws left : List Cmd) (xs : List Sample) (s : State) : State :=
  { s.beginRun with cur := ws.getLastD 0b000#3, source := left, out := s.out ++ xs, taken := ws }

/-- R113: `OUT` counted from the beginning of a finished run is what the run pushed. -/
theorem State.finishedRun_out_drop (ws left : List Cmd) (xs : List Sample) (s : State) :
    (s.finishedRun ws left xs).out.drop (s.finishedRun ws left xs).runBase = xs :=
  List.drop_left

/-- R113: a legal `START`, each word offered and the sink ready `SPS` times after each are a finished run. The run
begins in a state that meets the relations of R36, whatever came before, so the stream goes on from there. -/
theorem runSteps_start_stream {op : HostOp} {v : Word} {N : Nat} {ws left : List Cmd} {more : List Event}
    (hop : decodeHost op = .start v) (hm : s.mode = .idle) (hc : s.configurationCheck = .none)
    (hN : (s.sampleRate / s.symbolRate).toNat = N) (hs : s.source = ws ++ left)
    (ha : s.agenda = .host op :: (streamEvents N ws.length ++ more)) :
    runSteps (1 + ws.length * (N + 1)) s =
      .next ((s.finishedRun ws left (modulate Config.hardware N ws)).setAgenda more) := by
  have hstart : runSteps 1 s = .next (s.setAgenda (streamEvents N ws.length ++ more)).beginRun :=
    runSteps_succ 0 ha (perform_start_begins hop hm hc)
  rw [runSteps_add _ hstart]
  subst hN
  exact streamPushesModulate (s.setAgenda (streamEvents _ ws.length ++ more)).beginRun ws left more
    (State.beginRun_registersInv _ hc) rfl rfl hs rfl

/-- R64: a `STOP` between symbols sets `MODE` to `IDLE` and changes nothing else. -/
theorem step_stop_between {op : HostOp} {v : Word} {rest : List Event} (hop : decodeHost op = .stop v)
    (hm : s.mode = .run) (hb : s.busy = false) (ha : s.agenda = .host op :: rest) :
    step s = .next { s with mode := .idle, agenda := rest } :=
  (step_agenda ha).trans (perform_stop_between hop hm hb)

/-- Settles O59: a legal `START` and its stream are a finished run, whose fields are read off; a failed `START` raises,
and the markers of its run restart at the end of `OUT`. -/
theorem runEndsWithModulateOfItsProgram : Obligations.RunEndsWithModulateOfItsProgram := by
  refine ⟨fun s op v N ws left more hop hm hy hr hmod hN hs ha => ?finishes, fun s v hm hbad => ?fails⟩
  case finishes =>
    have hc : s.configurationCheck = .none := State.configurationCheck_eq_none_iff.mpr ⟨hy, hr, hmod⟩
    have hdrop := s.finishedRun_out_drop ws left (modulate Config.hardware N ws)
    have hsps : (s.sampleRate / s.symbolRate).toNat = N := by rw [hN, BitVec.toNat_udiv]
    exact ⟨(s.finishedRun ws left (modulate Config.hardware N ws)).setAgenda more,
      runSteps_start_stream hop hm hc hsps hs ha, rfl, hdrop,
      (congrArg List.length hdrop).trans (by rw [length_modulate, Nat.mul_comm]),
      rfl, rfl, hsps, rfl, rfl, rfl, rfl, rfl, rfl, rfl,
      fun stop w rest hmore hstop => step_stop_between hstop rfl rfl hmore⟩
  case fails =>
    have hc : s.configurationCheck ≠ .none := by
      rw [Ne, State.configurationCheck_eq_none_iff]
      omega
    exact ⟨s.raiseConfigurationError s.configurationCheck, exec_start_raises _ hm rfl hc v, rfl, rfl,
      List.drop_length, rfl⟩

/-! ### The start-up sequence -/

/-- R61: a host's write of `SAMPLE_RATE` in `IDLE`. -/
theorem perform_wrSampleRate_idle (hm : s.mode = .idle) (v : Word) :
    perform (.host (hostWrite 0#3 v)) s = .next (s.setSampleRate v) := by
  rw [perform, decodeHost_sampleRate, exec_wrSampleRate_idle hm]

/-- R62: a host's write of `SYMBOL_RATE` in `IDLE`. -/
theorem perform_wrSymbolRate_idle (hm : s.mode = .idle) (v : Word) :
    perform (.host (hostWrite 1#3 v)) s = .next (s.setSymbolRate v) := by
  rw [perform, decodeHost_symbolRate, exec_wrSymbolRate_idle hm]

/-- R109: the block after a reset and the writes of both rates. -/
def State.configuredBlock (sr yr : Word) (s : State) : State :=
  (s.resetBlock.setSampleRate sr).setSymbolRate yr

/-- R109: an `rst` and the two rate writes, in either order, configure the block. -/
theorem runSteps_configure {sr yr : Word} {rest : List Event}
    (ha : s.agenda = .reset :: .host (hostWrite 0#3 sr) :: .host (hostWrite 1#3 yr) :: rest ∨
      s.agenda = .reset :: .host (hostWrite 1#3 yr) :: .host (hostWrite 0#3 sr) :: rest) :
    runSteps 3 s = .next ((s.configuredBlock sr yr).setAgenda rest) := by
  obtain ha | ha := ha
  case inl =>
    rw [runSteps_succ 2 ha rfl, runSteps_succ 1 rfl (perform_wrSampleRate_idle rfl sr),
      runSteps_succ 0 rfl (perform_wrSymbolRate_idle rfl yr)]
    rfl
  case inr =>
    rw [runSteps_succ 2 ha rfl, runSteps_succ 1 rfl (perform_wrSymbolRate_idle rfl yr),
      runSteps_succ 0 rfl (perform_wrSampleRate_idle rfl sr)]
    rfl

/-- Settles O57: the configured block is in `IDLE` with the rates as written, so its `START` begins a run or raises by
their check, and pushes nothing either way. -/
theorem startUpSequence : Obligations.StartUpSequence := by
  intro s sr yr rest ha
  have hconf : runSteps 3 s = .next ((s.configuredBlock sr yr).setAgenda (.host startOp :: rest)) :=
    runSteps_configure ha
  have hcheck : ((s.configuredBlock sr yr).setAgenda rest).configurationCheck = .none ↔
      yr.toNat ≠ 0 ∧ sr.toNat ≠ 0 ∧ sr.toNat % yr.toNat = 0 := State.configurationCheck_eq_none_iff
  rw [← hcheck, runSteps_add 1 hconf]
  by_cases hc : ((s.configuredBlock sr yr).setAgenda rest).configurationCheck = .none
  case pos =>
    exact ⟨_, runSteps_succ 0 rfl (perform_start_begins decodeHost_startOp rfl hc), rfl, rfl, rfl, rfl, rfl,
      fun _ => ⟨rfl, BitVec.toNat_udiv, rfl⟩, (absurd hc ·)⟩
  case neg =>
    exact ⟨_, runSteps_succ 0 rfl (perform_start_raises decodeHost_startOp rfl hc), rfl, rfl, rfl, rfl, rfl,
      (absurd · hc), fun _ => ⟨rfl, rfl, hc⟩⟩

/-! ### A placed word -/

/-- Log entry 3: a placed host operation is performed by the next step, on the state as it was. -/
theorem step_placeWord_host (op : HostOp) (s : State) : step (s.placeWord (.host op)) = exec (decodeHost op) s :=
  step_agenda (s := s.placeWord (.host op)) rfl

/-- Log entry 3: the state in which a placed command word is taken. -/
def State.readied (s : State) : State :=
  if s.symReady then s else s.readyBlock

theorem State.readied_symReady (s : State) : s.readied.symReady = true := by
  by_cases hr : s.symReady = true
  · rwa [State.readied, if_pos hr]
  · rw [State.readied, if_neg hr]
    exact State.readyBlock_ready.1

/-- Log entry 3: a placed command word is offered by the next step to a ready block, which runs it. -/
theorem step_placeWord_sym (w : Cmd) (s : State) :
    step (s.placeWord (.sym w)) = exec (decode (.sym w)) s.readied :=
  calc step (s.placeWord (.sym w))
    _ = perform .sourceOffers (s.readied.setSource (w :: s.readied.source)) := step_agenda rfl
    _ = exec (decode (.sym w)) s.readied := perform_sourceOffers_ready rfl s.readied_symReady

/-- Log entry 4: the port of a row of format S. -/
theorem portWordOfTable_symbol {w : Nat} (hw : w < 8) : portWordOfTable 3 w = some (.sym (BitVec.ofNat 3 w)) := by
  simp [portWordOfTable, hw]

/-- Log entry 4: the port of a row of format H. -/
theorem portWordOfTable_host {w : Nat} (hw : w < 128) : ∃ op, portWordOfTable 7 w = some (.host op) := by
  simp [portWordOfTable, hw]

/-- Settles O9: the table's word is a port word of its format, which is placed and run. -/
theorem placedWordRunsNext : Obligations.PlacedWordRunsNext := by
  refine ⟨fun s w hw => ⟨s.readied, s.readied_symReady, fun hr => if_pos hr, ?symbol⟩, fun s w i hw hi => ?host⟩
  case symbol => rw [State.withFetchWord, portWordOfTable_symbol hw, step_placeWord_sym]
  case host =>
    obtain ⟨op, hop⟩ := portWordOfTable_host hw
    obtain rfl : decodeHost op = i := by simpa [decodeTableWord, hop, decode] using hi
    rw [State.withFetchWord, hop, step_placeWord_host]

end Sys2Proof.Machine
end
